-- ==== Sys2Proof/Word.lean ====
section
/-! DEFINITION. Words and bytes (00_scope.md R6): the two bit widths the engine computes with.
Everything built from them that a test could show wrong (byte order, bit fields, rotations) stands in
Machine/Operands.lean. -/

namespace Sys2Proof

/-- R6: "A word is a 32-bit unsigned integer". -/
abbrev Word := BitVec 32

/-- R6: "A byte is an 8-bit unsigned integer." -/
abbrev Byte := BitVec 8

end Sys2Proof
end

