-- ==== Sys2Proof/Config.lean ====
section
/-! DEFINITION. The values the spec leaves open: what a failed SETUP (60_exceptions.md R141) and a RELEASE
(40_context_ops.md R81) leave in the Context, "any value" (93_implementation_defined.md U1, U2).

Each is an opaque constant, so nothing can be proved about its values: a theorem about it holds for every value.
The first argument is the number of the draw (`State.freeDraws`), so that two draws are unrelated; the second is the
index of the cell in its array. Log entry 5.

The parameters of 00_scope.md R5 are fixed numbers of this hardware ("None is left for the model to take as an
argument except `KEYPACK`") and stand as literals where they are used; KEYPACK is `Machine.keypack`. -/

namespace Sys2Proof.Config

/-- U1, U2: word `a` of the table after draw `n`. -/
opaque freeTable (n a : Nat) : Word

/-- U1, U2: word `k` of feedbackP after draw `n`. -/
opaque freeFeedbackP (n k : Nat) : Word

/-- U1, U2: word `k` of feedbackQ after draw `n`. -/
opaque freeFeedbackQ (n k : Nat) : Word

/-- U1, U2: the counter after draw `n`: any value of the 10-bit register. -/
opaque freeCounter (n : Nat) : BitVec 10

/-- U1, U2: byte `j` of the key copy after draw `n`. -/
opaque freeKey (n j : Nat) : Byte

/-- U1, U2: byte `j` of the iv copy after draw `n`. -/
opaque freeIv (n j : Nat) : Byte

/-- U1, U2: keylen after draw `n`: any integer 0 to 16 (10_state.md R26). -/
opaque freeKeylen (n : Nat) : Fin 17

end Sys2Proof.Config
end

