-- ==== Sys2Proof/Machine/State.lean ====
section
/-! DEFINITION. The architectural state of one engine (10_state.md), as plain data, and the reasons a step can stop. -/

namespace Sys2Proof.Machine

/-- The table space (20_memory.md R40 (a)): a list of (word address, word) pairs in one canonical form, `Memory.wf` of
Machine/Ops.lean. The unit of addressing is the word: "there is no byte address into the table". Log entry 1. -/
abbrev Memory := List (Nat × Word)

/-- A feedback window: 16 words of 32 bits (10_state.md R23). -/
abbrev Window := Vector Word 16

/-- The key buffer or the iv buffer: 16 bytes (20_memory.md R40 (c)). -/
abbrev Buffer := Vector Byte 16

/-- The lifecycle register's values (10_state.md R28); their 2-bit codes are `Phase.code` of Machine/Flags.lean. -/
inductive Phase where
  | Zeroed
  | Ready
  | Undefined
  | Released
  deriving DecidableEq, Repr

/-- The Context, "the only stateful entity" (10_state.md R20), with the `keylen` that R26 adds to it. -/
structure Context where
  /-- T[0..1023] (R21). -/
  table : Memory
  /-- X[0..15] (R23). -/
  feedbackP : Window
  /-- Y[0..15] (R23). -/
  feedbackQ : Window
  /-- "integer in [0, 1023], wraps modulo 1024" (R25), a 10-bit register. -/
  counter : BitVec 10
  /-- key[0..15] (R26). -/
  key : Buffer
  /-- "an integer 0 to 16" (R26). -/
  keylen : Fin 17
  /-- iv[0..15] (R27). -/
  iv : Buffer
  deriving DecidableEq, Repr

/-- One engine. -/
structure State where
  /-- The Context (R20). -/
  ctx : Context
  /-- The lifecycle register (R28). -/
  phase : Phase
  /-- The bytes that have arrived on the command port and that no command has consumed, first to arrive first
  (30_encoding.md R61). -/
  commandPort : List Byte
  /-- The bytes sent on the response port that the host has not taken, first sent first (R61). -/
  responsePort : List Byte
  /-- The model's own field: how many "any value" draws have been made. Log entry 5. -/
  freeDraws : Nat
  deriving DecidableEq, Repr

/-- "new context, all fields zeroed" (R35, 40_context_ops.md R80). -/
def Context.zeroed : Context where
  table := []
  feedbackP := Vector.replicate 16 0
  feedbackQ := Vector.replicate 16 0
  counter := 0
  key := Vector.replicate 16 0
  keylen := 0
  iv := Vector.replicate 16 0

/-- The state after hardware reset (10_state.md R35, 70_reset_and_hazards.md R160): "every Context field zero, phase
Zeroed, both ports empty and no packet in progress". `freeDraws` is the model's (log entry 5). -/
def State.reset : State where
  ctx := Context.zeroed
  phase := .Zeroed
  commandPort := []
  responsePort := []
  freeDraws := 0

/-- Where a step stops with a fault. -/
inductive Fault where
  /-- 60_exceptions.md R143: byte 0 of a packet is a reserved opcode. Raised by the decoder through `raise`; "A model
  must treat it as a fault, not as a no-op." `after` is the engine's state once that byte is consumed and FF is sent.
  Safe: nothing can be proved of a run past it. Log entry 4. -/
  | illegalCommand (after : State)
  /-- 30_encoding.md R66: a packet has begun and has not fully arrived; "the engine waiting with its state unchanged,
  and the model has no step for it" (93_implementation_defined.md U10: stuck). Raised by the fetch. Safe. Log entry 3. -/
  | packetIncomplete
  /-- 60_exceptions.md R155: "Between packets the engine is idle with its state held." No byte has arrived: no step.
  Raised by the fetch. Safe. Log entry 3. -/
  | commandPortEmpty
  deriving DecidableEq, Repr

/-- Where a step is refused. -/
inductive Refusal where
  /-- A command whose arm of `exec` has no meaning yet. No arm is left so. Safe. -/
  | notModelled (mnemonic : String)
  /-- 60_exceptions.md R142: the phase forbids the command. Raised by SETUP, GEN, XFORM and RELEASE through `raise`; "A
  model must treat `NotUsable` as a refusal: a command sequence that reaches it has no meaning in the source."
  `after` is the engine's state once the packet is consumed and 02 is sent. Safe: nothing can be proved of a run past
  it. Log entry 4. -/
  | notUsable (after : State)
  deriving DecidableEq, Repr

end Sys2Proof.Machine
end

