-- ==== Sys2Proof/Machine/Flags.lean ====
section
/-! DEFINITION. The lifecycle register, the engine's only status: "The engine has no other flag, condition code or
predicate: no operation sets a carry, zero, sign or overflow flag" (10_state.md R28). -/

namespace Sys2Proof.Machine

/-- R28: the 2-bit code of each phase. -/
def Phase.code : Phase → BitVec 2
  | .Zeroed => 0
  | .Ready => 1
  | .Undefined => 2
  | .Released => 3

/-- R142 (b): in phase Released, SETUP and RELEASE are refused. -/
def Phase.refusesSetupAndRelease : Phase → Bool
  | .Zeroed => false
  | .Ready => false
  | .Undefined => false
  | .Released => true

/-- R142 (a), (b): in the phases Undefined and Released, GEN and XFORM are refused. -/
def Phase.refusesCipher : Phase → Bool
  | .Zeroed => false
  | .Ready => false
  | .Undefined => true
  | .Released => true

/-- 41_table_initializer.md R92, 30_encoding.md R69: the key lengths that raise `InvalidKeyLength`. -/
def badKeyLength (keylen : Nat) : Bool := keylen == 0 || decide (16 < keylen)

end Sys2Proof.Machine
end

