-- ==== Sys2Proof/Machine/Operands.lean ====
section
/-! DEFINITION. Operand forms: byte order, bit fields, rotations, and the addresses a sub-step forms from the counter.
All of it is arithmetic on words and indices; nothing here reads state. -/

namespace Sys2Proof.Machine

/-- 00_scope.md R7: `le32(b0, b1, b2, b3) = b0 + 256*b1 + 65536*b2 + 16777216*b3`, the word whose least significant
byte is b0. -/
def le32 (b0 b1 b2 b3 : Byte) : Word := b3 ++ b2 ++ b1 ++ b0

/-- R7: `bytes_le(w) = (w[7:0], w[15:8], w[23:16], w[31:24])`. -/
def bytesLe (w : Word) : List Byte :=
  [w.extractLsb' 0 8, w.extractLsb' 8 8, w.extractLsb' 16 8, w.extractLsb' 24 8]

/-- R6: `lo8(v) = v[7:0]`, the source's `byte0`. -/
def lo8 (v : Word) : Byte := v.extractLsb' 0 8

/-- R6: `mid8(v) = v[23:16]`, the source's `byte1` (NOT bits 15:8). -/
def mid8 (v : Word) : Byte := v.extractLsb' 16 8

/-- R9: `rotr(x, n) = ((x >> n) + (x * 2^(32-n))) mod 2^32`, for 0 < n < 32. -/
def rotr (x : Word) (n : Nat) : Word := (x >>> n) + (x <<< (32 - n))

/-- R9: `rotl(x, n) = ((x * 2^n) mod 2^32) + (x >> (32-n))`, for 0 < n < 32. -/
def rotl (x : Word) (n : Nat) : Word := (x <<< n) + (x >>> (32 - n))

/-- The two feedback windows, X = feedbackP and Y = feedbackQ (10_state.md R23). -/
inductive WindowName where
  | X
  | Y
  deriving DecidableEq, Repr

/-- The two rotation directions (42_updater_generator.md R111). -/
inductive Direction where
  | right
  | left
  deriving DecidableEq, Repr

/-- R111: `rot(v, n)`. -/
def Direction.rot : Direction → Word → Nat → Word
  | .right, v, n => rotr v n
  | .left, v, n => rotl v n

/-- The five quantities of R111 that a call fixes at entry for all its 16 sub-steps. -/
structure Side where
  /-- `cc`, the slot base in the half. -/
  cc : Nat
  /-- `B`, the base of the active half. -/
  B : Nat
  /-- `F`, the active window. -/
  F : WindowName
  /-- `rot`, the direction of g's rotations. -/
  dir : Direction
  /-- `Bh`, the base of the half h reads. -/
  Bh : Nat
  deriving DecidableEq, Repr

/-- R111, the table: P-mode when `c0 < 512`, Q-mode otherwise. `Bh` is as corrected by 90_conflicts.md C1. -/
def sideOf (c0 : BitVec 10) : Side :=
  if c0.toNat < 512 then
    { cc := c0.toNat % 512, B := 0, F := .X, dir := .right, Bh := 512 }
  else
    { cc := c0.toNat % 512, B := 512, F := .Y, dir := .left, Bh := 0 }

/-- R113: `slot(k) = B + ((cc + k) mod 512)`, the word sub-step k rewrites. -/
def slot (sd : Side) (k : Nat) : Nat := sd.B + (sd.cc + k) % 512

/-- R113: `nxt(k) = B + ((cc + k + 1) mod 512)`, the word after it, cyclically within the half. -/
def nxt (sd : Side) (k : Nat) : Nat := sd.B + (sd.cc + k + 1) % 512

/-- R114: `e = (pos+13) mod 16`, the window index of g's operand x. -/
def xIndex (k : Nat) : Nat := (k + 13) % 16

/-- R114: `d = (pos+6) mod 16`, the window index of g's operand y. -/
def yIndex (k : Nat) : Nat := (k + 6) % 16

/-- R114: `f = (pos+4) mod 16`, the window index of h's argument w. -/
def wIndex (k : Nat) : Nat := (k + 4) % 16

/-- R116: the address of h's first lookup, `Bh + lo8(w)`. -/
def hAddrLo (sd : Side) (w : Word) : Nat := sd.Bh + (lo8 w).toNat

/-- R116: the address of h's second lookup, `Bh + 256 + mid8(w)`. -/
def hAddrHi (sd : Side) (w : Word) : Nat := sd.Bh + 256 + (mid8 w).toNat

/-- R112: `g(x, y, z) = ((rot(x, 10) xor rot(z, 23)) + rot(y, 8)) mod 2^32`. -/
def g (sd : Side) (x y z : Word) : Word :=
  (sd.dir.rot x 10 ^^^ sd.dir.rot z 23) + sd.dir.rot y 8

/-- 41_table_initializer.md R95: `f1(x) = rotr(x, 7) xor rotr(x, 18) xor (x >> 3)`. -/
def f1 (x : Word) : Word := rotr x 7 ^^^ rotr x 18 ^^^ (x >>> 3)

/-- R95: `f2(x) = rotr(x, 17) xor rotr(x, 19) xor (x >> 10)`. -/
def f2 (x : Word) : Word := rotr x 17 ^^^ rotr x 19 ^^^ (x >>> 10)

/-- R93: the parameter KEYPACK (00_scope.md R5 row 12): which key byte stands at byte j of the 32-byte key field. The
default reading, `key[j mod keylen]` (92_eei_decisions.md D9; log entry 7). -/
def keypack (keylen j : Nat) : Nat := j % keylen

/-- R94: which iv byte stands at byte j of the 32-byte iv field, `iv[j mod 16]`. -/
def ivpack (j : Nat) : Nat := j % 16

/-- R95 to R98: the expansion recurrence's new word, from the four operands and the constant
(`i` in step 2, `256 + i` in step 4). -/
def expansionWord (tm2 tm7 tm15 tm16 : Word) (const : Nat) : Word :=
  f2 tm2 + tm7 + f1 tm15 + tm16 + BitVec.ofNat 32 const

end Sys2Proof.Machine
end

