-- ==== Sys2Proof/Machine/Ops.lean ====
section
/-! DEFINITION. The named operations over the storage spaces and the ports, the loop of the spec's pseudocode, and
taking an exception. Commands are written over these and touch no field of the Context's arrays directly. -/

namespace Sys2Proof.Machine

/-! ## The loop -/

/-- 00_scope.md R11: "`for i = a to b` runs i = a, a+1, ..., b in that order". `forUp body a n s` runs `body` for the
`n` indices a, a+1, ..., a+n-1. -/
def forUp {σ : Type} (body : Nat → σ → σ) (a : Nat) : Nat → σ → σ
  | 0, s => s
  | n + 1, s => body (a + n) (forUp body a n s)

/-! ## The table space (20_memory.md R40 (a), R41) -/

/-- What a table address that is not listed reads as: the reset content, 0 (10_state.md R35). -/
def Memory.unlisted : Word := 0

/-- R41: `MemRead(a, 4)`, written `T[a]`. -/
def Memory.read : Memory → Nat → Word
  | [], _ => Memory.unlisted
  | (b, v) :: m, a => if b = a then v else Memory.read m a

/-- The table with address `a` not listed. -/
def Memory.erase (m : Memory) (a : Nat) : Memory := m.filter fun cell => cell.1 != a

/-- The table with `(a, v)` listed before the first higher address. -/
def Memory.insert : Memory → Nat → Word → Memory
  | [], a, v => [(a, v)]
  | (b, u) :: m, a, v => if a < b then (a, v) :: (b, u) :: m else (b, u) :: Memory.insert m a v

/-- R41: `MemWrite(a, 4, v)`, written `T[a] <- v`. Writing what an unlisted address reads as removes the entry. -/
def Memory.write (m : Memory) (a : Nat) (v : Word) : Memory :=
  if v = Memory.unlisted then Memory.erase m a else Memory.insert (Memory.erase m a) a v

/-- The canonical form (log entry 1): addresses strictly rising, all of them below 1024 (R40), no entry equal to what
an unlisted address reads as. -/
abbrev Memory.wf (m : Memory) : Prop :=
  m.Pairwise (fun p q => p.1 < q.1) ∧ ∀ cell ∈ m, cell.1 < 1024 ∧ cell.2 ≠ Memory.unlisted

/-- The table whose word at each address `a` of 0 to 1023 is `f a`. -/
def Memory.ofFn (f : Nat → Word) : Memory :=
  forUp (fun a m => Memory.write m a (f a)) 0 1024 []

/-! ## The windows and the key and iv buffers (R40 (b), (c)): every index is reduced modulo 16 (R46; log entry 8) -/

/-- `X[k]` or `Y[k]` of one window (00_scope.md R10). -/
def Window.read (w : Window) (k : Nat) : Word := w[k % 16]'(Nat.mod_lt k (by decide))

/-- `X[k] <- v` or `Y[k] <- v` on one window. -/
def Window.write (w : Window) (k : Nat) (v : Word) : Window := w.set (k % 16) v (Nat.mod_lt k (by decide))

/-- `key[j]` or `iv[j]`. -/
def Buffer.read (b : Buffer) (j : Nat) : Byte := b[j % 16]'(Nat.mod_lt j (by decide))

/-- `for j = 0 to len(bs)-1: b[j] <- bs[j]`: the buffer's other bytes keep their old value (10_state.md R26). -/
def Buffer.copyIn (b : Buffer) (bs : List Byte) : Buffer :=
  Vector.ofFn fun j => if j.val < bs.length then bs.getD j.val 0 else b[j]

/-! ## The Context -/

/-- `T[a]` (00_scope.md R10). -/
def Context.T (c : Context) (a : Nat) : Word := Memory.read c.table a

/-- `T[a] <- v`. -/
def Context.setT (c : Context) (a : Nat) (v : Word) : Context := { c with table := Memory.write c.table a v }

/-- The window a name stands for. -/
def Context.window (c : Context) : WindowName → Window
  | .X => c.feedbackP
  | .Y => c.feedbackQ

/-- `F[k]`, where F is X or Y (R10). -/
def Context.F (c : Context) (f : WindowName) (k : Nat) : Word := Window.read (c.window f) k

/-- `F[k] <- v`. -/
def Context.setF (c : Context) (f : WindowName) (k : Nat) (v : Word) : Context :=
  match f with
  | .X => { c with feedbackP := Window.write c.feedbackP k v }
  | .Y => { c with feedbackQ := Window.write c.feedbackQ k v }

/-- "any value" for every Context field (60_exceptions.md R141, 40_context_ops.md R81), draw number `n`: each field "is
a fresh, unconstrained draw" (93_implementation_defined.md U1, U2). -/
def Context.anyValue (n : Nat) : Context where
  table := Memory.ofFn (Config.freeTable n)
  feedbackP := Vector.ofFn fun k => Config.freeFeedbackP n k.val
  feedbackQ := Vector.ofFn fun k => Config.freeFeedbackQ n k.val
  counter := Config.freeCounter n
  key := Vector.ofFn fun j => Config.freeKey n j.val
  keylen := Config.freeKeylen n
  iv := Vector.ofFn fun j => Config.freeIv n j.val

/-! ## Responses and exceptions -/

/-- 00_scope.md R11: "`respond(S)` appends byte string S to the response port." -/
def State.respond (s : State) (bs : List Byte) : State := { s with responsePort := s.responsePort ++ bs }

/-- 30_encoding.md R65: the status byte 0x00, OK, which a successful command's response starts with. -/
def statusOK : Byte := 0x00

/-- The synchronous exceptions (60_exceptions.md R140). -/
inductive ExceptionName where
  | InvalidKeyLength
  | NotUsable
  | IllegalCommand
  deriving DecidableEq, Repr

/-- R140: an exception's code, the status byte of its response. -/
def ExceptionName.code : ExceptionName → Byte
  | .InvalidKeyLength => 0x01
  | .NotUsable => 0x02
  | .IllegalCommand => 0xFF

/-- Taking an exception (R141 to R143, R148): it ends its command, saves nothing and transfers control nowhere; "the
engine sends the status byte and waits for the next packet". The state `s` is the one with the packet consumed. The
class of each outcome is R156's: `InvalidKeyLength` is a next state with phase Undefined and every Context field any
value; `NotUsable` is a refusal and `IllegalCommand` a fault, both precise ("the state is what it was before the
command") and carrying the state the engine is left in (log entry 4). There is no return instruction (R149): the next
packet is the return. -/
def raise (e : ExceptionName) (s : State) : Host.Outcome State Fault Refusal :=
  match e with
  | .InvalidKeyLength =>
    .next ({ s with ctx := Context.anyValue s.freeDraws, phase := .Undefined,
                    freeDraws := s.freeDraws + 1 }.respond [e.code])
  | .NotUsable => .refused (.notUsable (s.respond [e.code]))
  | .IllegalCommand => .fault (.illegalCommand (s.respond [e.code]))

/-- What the engine's ports carry, whatever class the outcome has: the state the engine is left in after the step
(95_test_vectors.md P4: a refused or illegal command still answers with its status byte). `s` is the state before the
step, which a waiting engine keeps (R66). -/
def stateAfter (s : State) : Host.Outcome State Fault Refusal → State
  | .next t => t
  | .fault (.illegalCommand t) => t
  | .fault .packetIncomplete => s
  | .fault .commandPortEmpty => s
  | .refused (.notUsable t) => t
  | .refused _ => s

end Sys2Proof.Machine
end

