-- ==== Sys2Proof/Machine/Generator.lean ====
section
/-! DEFINITION. The Updater/Generator (42_updater_generator.md): the sub-steps, the calls UPD16 and GEN16, and the
command GEN. One sub-step function serves both halves, parameterised by the side (R124). -/

namespace Sys2Proof.Machine

/-- R116: `h(w) = ( T[Bh + lo8(w)] + T[Bh + 256 + mid8(w)] ) mod 2^32`. -/
def h (sd : Side) (c : Context) (w : Word) : Word := c.T (hAddrLo sd w) + c.T (hAddrHi sd w)

/-- R115, R117, R118: `T[slot(k)] + g(x, y, z)`, with `x = F[(k+13) mod 16]`, `y = F[(k+6) mod 16]` and
`z = T[nxt(k)]`. -/
def gSum (sd : Side) (c : Context) (k : Nat) : Word :=
  c.T (slot sd k) + g sd (c.F sd.F (xIndex k)) (c.F sd.F (yIndex k)) (c.T (nxt sd k))

/-- R116: h at sub-step k, `h(F[(k+4) mod 16])`. -/
def hTerm (sd : Side) (c : Context) (k : Nat) : Word := h sd c (c.F sd.F (wIndex k))

/-- R117, R118: the two writes of a sub-step, `T[slot(k)] <- v; F[k] <- v`. -/
def store (sd : Side) (c : Context) (k : Nat) (v : Word) : Context := (c.setT (slot sd k) v).setF sd.F k v

/-- R117, the update-mode sub-step: the stored word is `(T[slot(k)] + g(x, y, z)) xor h(w)`; nothing is emitted. -/
def updSubstep (sd : Side) (k : Nat) (c : Context) : Context := store sd c k (gSum sd c k ^^^ hTerm sd c k)

/-- R118, the generate-mode sub-step: the stored word is `T[slot(k)] + g(x, y, z)`, and `h(w)` is xored into the
emitted word only. The emitted words are collected in order. -/
def genSubstep (sd : Side) (k : Nat) (cw : Context × List Word) : Context × List Word :=
  (store sd cw.1 k (gSum sd cw.1 k), cw.2 ++ [hTerm sd cw.1 k ^^^ gSum sd cw.1 k])

/-- R120: `counter = (counter + 16) mod 1024`, from the value `c0` at entry. -/
def advance (c0 : BitVec 10) (c : Context) : Context := { c with counter := c0 + 16 }

/-- R119: UPD16, the update-mode call. -/
def upd16 (c : Context) : Context :=
  advance c.counter (forUp (updSubstep (sideOf c.counter)) 0 16 c)

/-- R121: the 16 sub-steps of a generate-mode call, with out[0..15]. -/
def gen16Words (c : Context) : Context × List Word := forUp (genSubstep (sideOf c.counter)) 0 16 (c, [])

/-- R121: GEN16, the generate-mode call, with its keystream block KS. -/
def gen16 (c : Context) : Context × List Byte :=
  (advance c.counter (gen16Words c).1, (gen16Words c).2.flatMap bytesLe)

/-- R122: the command GEN. -/
def execGen (s : State) : Host.Outcome State Fault Refusal :=
  if s.phase.refusesCipher then raise .NotUsable s
  else .next ({ s with ctx := (gen16 s.ctx).1 }.respond (statusOK :: (gen16 s.ctx).2))

end Sys2Proof.Machine
end

