-- ==== Sys2Proof/Machine/CipherDriver.lean ====
section
/-! DEFINITION. The Cipher Driver, command XFORM (43_cipher_driver.md). -/

namespace Sys2Proof.Machine

/-- R131: `OUT[i] <- DATA[i] xor KS[i]` for every data byte; keystream bytes beyond the data are dropped (R133). -/
def xorBytes (data ks : List Byte) : List Byte := List.zipWith (· ^^^ ·) data ks

/-- The tail of R130 (R133, R134): no generation for no data; otherwise one block, of which only the prefix is used. -/
def transformTail (data : List Byte) (c : Context) : Context × List Byte :=
  match data with
  | [] => (c, [])
  | _ :: _ => ((gen16 c).1, xorBytes data (gen16 c).2)

/-- R130, R132: `blocks` whole blocks of 64 data bytes, one GEN16 call each, then the tail. -/
def transformBlocks : Nat → List Byte → Context → Context × List Byte
  | 0, data, c => transformTail data c
  | n + 1, data, c =>
    let rest := transformBlocks n (data.drop 64) (gen16 c).1
    (rest.1, xorBytes (data.take 64) (gen16 c).2 ++ rest.2)

/-- R130: the Driver's work on one buffer: the Context afterwards and OUT[0..LEN-1]. -/
def transform (data : List Byte) (c : Context) : Context × List Byte := transformBlocks (data.length / 64) data c

/-- R130: the command XFORM. -/
def execXform (data : List Byte) (s : State) : Host.Outcome State Fault Refusal :=
  if s.phase.refusesCipher then raise .NotUsable s
  else .next ({ s with ctx := (transform data s.ctx).1 }.respond (statusOK :: (transform data s.ctx).2))

end Sys2Proof.Machine
end

