-- ==== Sys2Proof/Machine/ContextOps.lean ====
section
/-! DEFINITION. The Context commands CLEAR and RELEASE (40_context_ops.md). -/

namespace Sys2Proof.Machine

/-- R80: CLEAR, accepted in every phase: every Context field zero, phase Zeroed, respond 00. -/
def execClear (s : State) : Host.Outcome State Fault Refusal :=
  .next ({ s with ctx := Context.zeroed, phase := .Zeroed }.respond [statusOK])

/-- R81: RELEASE: phase Released, every Context field any value, respond 00. -/
def execRelease (s : State) : Host.Outcome State Fault Refusal :=
  if s.phase.refusesSetupAndRelease then raise .NotUsable s
  else
    .next ({ s with ctx := Context.anyValue s.freeDraws, phase := .Released,
                    freeDraws := s.freeDraws + 1 }.respond [statusOK])

end Sys2Proof.Machine
end

