-- ==== Sys2Proof/Machine/TableInitializer.lean ====
section
/-! DEFINITION. The Table Initializer, command SETUP (41_table_initializer.md): one definition for each of the six
steps of R91, in the spec's order. -/

namespace Sys2Proof.Machine

/-- R90: "copies key/iv, resets counter to 0". KEYLEN is at most 16 where this runs. -/
def copyOperands (keyBytes : List Byte) (ivBytes : Vector Byte 16) (c : Context) : Context :=
  { c with
    key := Buffer.copyIn c.key keyBytes
    keylen := Fin.ofNat 17 keyBytes.length
    iv := ivBytes
    counter := 0 }

/-- R93: byte j of the 32-byte key field. -/
def keyFieldByte (c : Context) (j : Nat) : Byte := Buffer.read c.key (keypack c.keylen.val j)

/-- R94: byte j of the 32-byte iv field. -/
def ivFieldByte (c : Context) (j : Nat) : Byte := Buffer.read c.iv (ivpack j)

/-- 20_memory.md R43: word i of a packed field is `le32(b[4i], b[4i+1], b[4i+2], b[4i+3])`. -/
def packWord (b : Nat → Byte) (i : Nat) : Word := le32 (b (4 * i)) (b (4 * i + 1)) (b (4 * i + 2)) (b (4 * i + 3))

/-- Step 1 (R93, R94): the key field into T[0..7], the iv field into T[8..15]. -/
def packKeyAndIv (c : Context) : Context :=
  forUp (fun i c => c.setT (8 + i) (packWord (ivFieldByte c) i)) 0 8
    (forUp (fun i c => c.setT i (packWord (keyFieldByte c) i)) 0 8 c)

/-- One step of the recurrence of R96 and R98 at index i, with the constant `offset + i`. -/
def expandAt (offset i : Nat) (c : Context) : Context :=
  c.setT i (expansionWord (c.T (i - 2)) (c.T (i - 7)) (c.T (i - 15)) (c.T (i - 16)) (offset + i))

/-- Step 2 (R96): `for i = 16 to 271`, constant i. -/
def firstExpansion (c : Context) : Context := forUp (expandAt 0) 16 256 c

/-- Step 3 (R97): `for i = 0 to 15: T[i] <- T[256 + i]`. -/
def whiten (c : Context) : Context := forUp (fun i c => c.setT i (c.T (256 + i))) 0 16 c

/-- Step 4 (R98): `for i = 16 to 1023`, constant 256 + i. -/
def secondExpansion (c : Context) : Context := forUp (expandAt 256) 16 1008 c

/-- Step 5 (R99): `for k = 0 to 15: X[k] <- T[496 + k]; Y[k] <- T[1008 + k]`. -/
def seedWindows (c : Context) : Context :=
  forUp (fun k c => (c.setF .X k (c.T (496 + k))).setF .Y k (c.T (1008 + k))) 0 16 c

/-- Step 6 (R100): `repeat 64 times: UPD16`, from counter 0. -/
def warmUp (c : Context) : Context := forUp (fun _ c => upd16 c) 0 64 { c with counter := 0 }

/-- R91: the six steps in the order 1, 2, 3, 4, 5, 6. -/
def initializeTable (c : Context) : Context :=
  warmUp (seedWindows (secondExpansion (whiten (firstExpansion (packKeyAndIv c)))))

/-- R90: the command SETUP. The phase is checked before the key length (R147). -/
def execSetup (keyBytes : List Byte) (ivBytes : Vector Byte 16) (s : State) : Host.Outcome State Fault Refusal :=
  if s.phase.refusesSetupAndRelease then raise .NotUsable s
  else if badKeyLength keyBytes.length then raise .InvalidKeyLength s
  else
    .next ({ s with ctx := initializeTable (copyOperands keyBytes ivBytes s.ctx), phase := .Ready }.respond [statusOK])

end Sys2Proof.Machine
end

