-- ==== Sys2Proof/Syntax.lean ====
section
/-! DEFINITION. The engine's commands as syntax: one constructor for each row of spec/opcode_table.json
(30_encoding.md R60, R68). -/

namespace Sys2Proof

/-- The five commands of R60. KEYLEN and LEN are the lengths of the operand byte strings (R67). The iv operand is
"always 16 bytes" (R63), so it is a vector. UPD16 is internal and has no command (R60). -/
inductive Instr where
  /-- CLEAR, opcode 0x01, format Z (R80). -/
  | clear
  /-- SETUP, opcode 0x02, format K (R90): KEY[0..KEYLEN-1] and IV[0..15]. -/
  | setup (key : List Byte) (iv : Vector Byte 16)
  /-- GEN, opcode 0x03, format Z (R122). -/
  | gen
  /-- XFORM, opcode 0x04, format D (R130): DATA[0..LEN-1]. -/
  | xform (data : List Byte)
  /-- RELEASE, opcode 0x05, format Z (R81). -/
  | release
  deriving DecidableEq, Repr

end Sys2Proof
end

