-- ==== Sys2Proof/Machine/Dispatch.lean ====
section
/-! DEFINITION. The dispatch of 30_encoding.md R68: one arm for each command. -/

namespace Sys2Proof.Machine

/-- The meaning of one command, on the state whose command port no longer holds its packet. -/
def exec (i : Instr) (s : State) : Host.Outcome State Fault Refusal :=
  match i with
  | .clear => Sys2Proof.Machine.execClear s
  | .setup keyBytes ivBytes => Sys2Proof.Machine.execSetup keyBytes ivBytes s
  | .gen => Sys2Proof.Machine.execGen s
  | .xform data => Sys2Proof.Machine.execXform data s
  | .release => Sys2Proof.Machine.execRelease s

end Sys2Proof.Machine
end

