-- ==== Sys2Proof/WellFormed.lean ====
section
/-! DEFINITION. Which commands a packet can express (30_encoding.md R63, R64, R69). -/

namespace Sys2Proof

/-- KEYLEN is one byte, "unsigned 0 to 255" (R63); LEN is "an unsigned 32-bit integer" (R64). Every byte value is
legal in KEY, IV and DATA, and a KEYLEN of 0 or above 16 is a packet like any other (R69: it raises an exception when
executed). -/
def Instr.wf : Instr → Bool
  | .clear => true
  | .setup key _ => decide (key.length < 256)
  | .gen => true
  | .xform data => decide (data.length < 2 ^ 32)
  | .release => true

end Sys2Proof
end

