-- ==== Sys2Proof/Decode.lean ====
section
/-! DEFINITION. Command packets (30_encoding.md R61 to R70): the decoder, total on any bytes and rejecting by name, and
the encoder, both written from the same format tables. -/

namespace Sys2Proof

open Machine (le32 bytesLe)

/-- Why no command could be read from the command port. -/
inductive Reject where
  /-- Nothing has arrived. -/
  | empty
  /-- R66: the packet has begun and its last byte has not arrived. -/
  | incomplete
  /-- R68: byte 0 is a reserved opcode. -/
  | illegalCommand
  deriving DecidableEq, Repr

/-- R68: the opcode byte of each command. -/
def opcode : Instr → Byte
  | .clear => 0x01
  | .setup _ _ => 0x02
  | .gen => 0x03
  | .xform _ => 0x04
  | .release => 0x05

/-- R68: 0x00 and 0x06 to 0xFF are reserved. -/
def reservedOpcode (b0 : Byte) : Bool := b0 == 0x00 || decide (0x06 ≤ b0.toNat)

/-- The first 16 bytes of a list as the iv operand IV[0..15] of format K (R63). Every caller has at least 16 bytes. -/
def ivOfBytes (bs : List Byte) : Vector Byte 16 := Vector.ofFn fun j => bs.getD j.val 0

/-- Format K after the opcode byte (R63): KEYLEN, KEY[0..KEYLEN-1], IV[0..15]. -/
def decodeK : List Byte → Except Reject (Instr × List Byte)
  | [] => .error .incomplete
  | b1 :: rest =>
    if rest.length < b1.toNat + 16 then .error .incomplete
    else .ok (.setup (rest.take b1.toNat) (ivOfBytes (rest.drop b1.toNat)), rest.drop (b1.toNat + 16))

/-- Format D after the opcode byte (R64): LEN in four bytes, least significant first, then DATA[0..LEN-1]. -/
def decodeD : List Byte → Except Reject (Instr × List Byte)
  | b1 :: b2 :: b3 :: b4 :: rest =>
    if rest.length < (le32 b1 b2 b3 b4).toNat then .error .incomplete
    else .ok (.xform (rest.take (le32 b1 b2 b3 b4).toNat), rest.drop (le32 b1 b2 b3 b4).toNat)
  | _ => .error .incomplete

/-- R66, R68: the command whose packet stands at the head of the byte stream, and the bytes after that packet. The
answer depends on the bytes alone (R61: the length "never depends on the engine's state"). -/
def decode : List Byte → Except Reject (Instr × List Byte)
  | [] => .error .empty
  | b0 :: rest =>
    if b0 = 0x01 then .ok (.clear, rest)
    else if b0 = 0x02 then decodeK rest
    else if b0 = 0x03 then .ok (.gen, rest)
    else if b0 = 0x04 then decodeD rest
    else if b0 = 0x05 then .ok (.release, rest)
    else .error .illegalCommand

/-- R62 to R64: the packet of a command. -/
def encode : Instr → List Byte
  | .clear => [0x01]
  | .setup key iv => 0x02 :: BitVec.ofNat 8 key.length :: (key ++ iv.toList)
  | .gen => [0x03]
  | .xform data => 0x04 :: (bytesLe (BitVec.ofNat 32 data.length) ++ data)
  | .release => [0x05]

/-- R66: the length of the packet, computed from its leading bytes. Bytes beyond the end of `bs` count as 0. -/
def packetLength (bs : List Byte) : Nat :=
  let b := fun n => bs.getD n 0
  if b 0 = 0x02 then 18 + (b 1).toNat
  else if b 0 = 0x04 then 5 + (le32 (b 1) (b 2) (b 3) (b 4)).toNat
  else 1

/-- The bytes of an opcode-table word: byte j is bits 8j+7 to 8j of `w`, byte 0 of the packet first. -/
def wordBytes (nbits w : Nat) : List Byte :=
  (List.range (nbits / 8)).map fun j => BitVec.ofNat 8 (w / 2 ^ (8 * j))

/-- The packet that begins with an opcode-table word and whose operand bytes above the word are 0. -/
def packetOfTableWord (nbits w : Nat) : List Byte :=
  let bs := wordBytes nbits w
  (bs ++ List.replicate (packetLength bs - bs.length) 0).take (packetLength bs)

/-- The command the decoder reads from an opcode-table word, none where it rejects. -/
def decodeTableWord (nbits w : Nat) : Option Instr :=
  match decode (packetOfTableWord nbits w) with
  | .ok (i, _) => some i
  | .error _ => none

end Sys2Proof
end

