-- ==== Sys2Proof/Machine/Fetch.lean ====
section
/-! DEFINITION. Reading the next command packet from the command port (30_encoding.md R61, R66), and placing one. -/

namespace Sys2Proof.Machine

/-- Either the command whose whole packet stands at the head of the command port, with the state after consuming that
packet; or the outcome of a step that dispatches no command: a reserved opcode consumes its one byte and raises
`IllegalCommand` (60_exceptions.md R143), and without a whole packet the engine waits (R66). -/
def fetch (s : State) : Except (Host.Outcome State Fault Refusal) (Instr × State) :=
  match decode s.commandPort with
  | .ok (i, rest) => .ok (i, { s with commandPort := rest })
  | .error .empty => .error (.fault .commandPortEmpty)
  | .error .incomplete => .error (.fault .packetIncomplete)
  | .error .illegalCommand => .error (raise .IllegalCommand { s with commandPort := s.commandPort.drop 1 })

/-- `s` with a packet put before whatever waits on the command port. -/
def placePacket (s : State) (packet : List Byte) : State := { s with commandPort := packet ++ s.commandPort }

end Sys2Proof.Machine
end

