-- ==== Sys2Proof/Machine/Step.lean ====
section
/-! DEFINITION. One step: one whole command (00_scope.md R4, 92_eei_decisions.md D17). -/

namespace Sys2Proof.Machine

/-- Fetch the next packet (R66), then execute its command to completion. -/
def step (s : State) : Host.Outcome State Fault Refusal :=
  match fetch s with
  | .ok (i, t) => exec i t
  | .error o => o

/-- `s` with the packet that begins with an opcode-table word, its operand bytes above the word 0, standing at the head
of the command port. Log entry 6. -/
def State.withFetchWord (s : State) (nbits w : Nat) : State := placePacket s (packetOfTableWord nbits w)

end Sys2Proof.Machine
end

