-- ==== Sys2Proof/Machine/HostPort.lean ====
section
/-! DEFINITION. What the outside world does to the engine (00_scope.md R4, 30_encoding.md R61, 70_reset_and_hazards.md
R160). These are inputs, not steps: the machine's step never calls them. -/

namespace Sys2Proof.Machine

/-- R61: the host sends bytes; they arrive behind those already on the command port. -/
def State.hostSend (s : State) (bs : List Byte) : State := { s with commandPort := s.commandPort ++ bs }

/-- R61: the host takes the first `n` bytes of the response port. -/
def State.hostTake (s : State) (n : Nat) : State := { s with responsePort := s.responsePort.drop n }

/-- R160: a hardware reset, at any time, gives the state of 10_state.md R35. The model's own `freeDraws` goes on, so
that a draw after a reset is not tied to one before it (log entry 5). -/
def State.hardwareReset (s : State) : State := { State.reset with freeDraws := s.freeDraws }

end Sys2Proof.Machine
end

