-- ==== Sys2Proof/Safety.lean ====
section
/-! DEFINITION. The words claims are stated in: what a safe step is, the invariants of the state, and what one
Updater/Generator call does, said as equations between the Context before and the Context after it. -/

namespace Sys2Proof.Machine

/-- The step ends its command with a next state (60_exceptions.md R156): the run goes on. -/
def Safe (s : State) : Prop := ∃ t, step s = .next t

/-! ## Which commands a phase accepts -/

/-- 10_state.md R28, 60_exceptions.md R142: "In phase Released every command but CLEAR is refused; in phase Undefined
GEN and XFORM are refused". -/
def accepts (p : Phase) : Instr → Prop
  | .clear => True
  | .setup _ _ => p ≠ .Released
  | .gen => p = .Zeroed ∨ p = .Ready
  | .xform _ => p = .Zeroed ∨ p = .Ready
  | .release => p ≠ .Released

/-! ## Invariants -/

/-- The table is in canonical form (log entry 1). -/
def CanonicalTable (s : State) : Prop := Memory.wf s.ctx.table

/-- 10_state.md R30: in phase Zeroed or Ready, `counter mod 16 = 0`. -/
def CounterAligned (s : State) : Prop :=
  s.phase = .Zeroed ∨ s.phase = .Ready → s.ctx.counter.toNat % 16 = 0

/-- 10_state.md R28, its table, and R36: in phase Zeroed every Context field is zero, but for the counter, which GEN and
XFORM advance. -/
def ZeroedIsZero (s : State) : Prop :=
  s.phase = .Zeroed → { s.ctx with counter := 0 } = Context.zeroed

/-- The slot base of the latest call on the P-half, when the counter is `n` and a multiple of 16: 496 before the first
P-mode call and during Q-mode. -/
def lastSlotP (n : Nat) : Nat := if n < 512 then (n + 496) % 512 else 496

/-- The slot base of the latest call on the Q-half: 1008 before the first Q-mode call and during P-mode. -/
def lastSlotQ (n : Nat) : Nat := if n < 512 then 1008 else 512 + (n + 496) % 512

/-- 10_state.md R29: each window holds the 16 words the latest call on its half wrote, at every counter. -/
def WindowsCacheTheTable (s : State) : Prop :=
  s.phase = .Zeroed ∨ s.phase = .Ready → ∀ k < 16,
    s.ctx.F .X k = s.ctx.T (lastSlotP s.ctx.counter.toNat + k) ∧
    s.ctx.F .Y k = s.ctx.T (lastSlotQ s.ctx.counter.toNat + k)

/-! ## One call, as equations (42_updater_generator.md R110 to R121) -/

/-- The window word that sub-step `k` finds at offset `o` (R114): the entry `k + o` of the window before the call `c`,
or, when the index wraps, the entry that an earlier sub-step of the same call wrote, as `d` after the call holds it. -/
def seen (c d : Context) (f : WindowName) (k o : Nat) : Word :=
  if k + o < 16 then c.F f (k + o) else d.F f (k + o - 16)

/-- `T[slot(k)] + g(x, y, z)` at sub-step `k` of the call that leads from `c` to `d` (R115). -/
def sumAt (c d : Context) (k : Nat) : Word :=
  let sd := sideOf c.counter
  c.T (slot sd k) + g sd (seen c d sd.F k 13) (seen c d sd.F k 6) (c.T (nxt sd k))

/-- `h(w)` at sub-step `k` of that call (R116). -/
def hAt (c d : Context) (k : Nat) : Word :=
  let sd := sideOf c.counter
  c.T (hAddrLo sd (seen c d sd.F k 4)) + c.T (hAddrHi sd (seen c d sd.F k 4))

/-- R110: a call "rewrites exactly the 16 table words `slot(0)` to `slot(15)` [...] and all 16 words of the active
window, and changes nothing else" but the counter (R120); the window's words are the table words just written. -/
structure CallFrame (c d : Context) : Prop where
  table : ∀ a, (∀ k < 16, a ≠ slot (sideOf c.counter) k) → d.T a = c.T a
  active : ∀ k < 16, d.F (sideOf c.counter).F k = d.T (slot (sideOf c.counter) k)
  inactive : ∀ f, f ≠ (sideOf c.counter).F → d.window f = c.window f
  counter : d.counter.toNat = (c.counter.toNat + 16) % 1024
  key : d.key = c.key
  keylen : d.keylen = c.keylen
  iv : d.iv = c.iv

/-- What UPD16 does from `c` to `d` (R117, R119). -/
structure UpdCall (c d : Context) : Prop where
  frame : CallFrame c d
  word : ∀ k < 16, d.T (slot (sideOf c.counter) k) = sumAt c d k ^^^ hAt c d k

/-- What GEN16 does from `c` to `d`, emitting the block `ks` (R118, R121). -/
structure GenCall (c d : Context) (ks : List Byte) : Prop where
  frame : CallFrame c d
  word : ∀ k < 16, d.T (slot (sideOf c.counter) k) = sumAt c d k
  block : ks = (List.range 16).flatMap fun k => bytesLe (hAt c d k ^^^ d.T (slot (sideOf c.counter) k))

/-- 41_table_initializer.md R98: the sequence W of steps 2 to 4 over the 16 packed words `p`, with constant i:
"Together, steps 2 to 4 compute one sequence W[0..1279] with constant i". -/
def IsExpansionOf (p W : Nat → Word) : Prop :=
  (∀ i < 16, W i = p i) ∧
  ∀ i, 16 ≤ i → i < 1280 →
    W i = f2 (W (i - 2)) + W (i - 7) + f1 (W (i - 15)) + W (i - 16) + BitVec.ofNat 32 i

/-- R93, R94: word `i` of 0 to 15 that step 1 packs from the operands KEY and IV. -/
def packedWord (keyBytes : List Byte) (ivBytes : Vector Byte 16) (i : Nat) : Word :=
  let b := fun j =>
    if j < 32 then keyBytes.getD (j % keyBytes.length) 0 else ivBytes.toList.getD ((j - 32) % 16) 0
  le32 (b (4 * i)) (b (4 * i + 1)) (b (4 * i + 2)) (b (4 * i + 3))

/-! ## The mirror construction (42_updater_generator.md R124) -/

/-- The other window. -/
def WindowName.other : WindowName → WindowName
  | .X => .Y
  | .Y => .X

/-- The same rotation direction on the other half: B, Bh and F exchanged, "a fixed table offset (+512)". -/
def Side.mirror (sd : Side) : Side :=
  { cc := sd.cc, B := (sd.B + 512) % 1024, F := sd.F.other, dir := sd.dir, Bh := (sd.Bh + 512) % 1024 }

/-- `d` is `c` with X and Y exchanged and "table address a replaced by `(a + 512) mod 1024` everywhere". -/
structure Mirrored (c d : Context) : Prop where
  table : ∀ a < 1024, d.T ((a + 512) % 1024) = c.T a
  window : ∀ f k, d.F f.other k = c.F f k

/-! ## The copies of key and iv (10_state.md R26, R27) -/

/-- `s` with other key and iv copies and another keylen. -/
def State.withKeyCopies (s : State) (key : Buffer) (keylen : Fin 17) (iv : Buffer) : State :=
  { s with ctx := { s.ctx with key := key, keylen := keylen, iv := iv } }

/-- The states agree but for the key and iv copies and keylen. -/
def SameButKeyCopies (s t : State) : Prop := ∃ key keylen iv, t = s.withKeyCopies key keylen iv

/-- Outcomes of one class whose states agree but for the key and iv copies and keylen. -/
def OutcomesAgree (o o' : Host.Outcome State Fault Refusal) : Prop :=
  (∃ t t', o = .next t ∧ o' = .next t' ∧ SameButKeyCopies t t') ∨
  (∃ t t', o = .refused (.notUsable t) ∧ o' = .refused (.notUsable t') ∧ SameButKeyCopies t t')

end Sys2Proof.Machine
end

