-- ==== Sys2Proof/Certificates/Slice0/Obligations.lean ====
section
/-! DEFINITION. The statements for the provers. Each docstring names the rule of spec/ that the statement formalises or
the sections it rests on. -/

open Sys2Proof Sys2Proof.Machine

/-! ## Reset and invariants -/

/-- 10_state.md R35: after reset every spec-given field has the value of the rule's table, a hardware reset at any time
leaves the same in every field but the model's own `freeDraws` (log entry 5), and CLEAR the same Context and phase. -/
def Obligations.ResetStateIsAllZero : Prop :=
  (∀ a, State.reset.ctx.T a = 0) ∧
  (∀ k, State.reset.ctx.F .X k = 0 ∧ State.reset.ctx.F .Y k = 0) ∧
  State.reset.ctx.counter = 0 ∧
  (∀ j, Buffer.read State.reset.ctx.key j = 0 ∧ Buffer.read State.reset.ctx.iv j = 0) ∧
  State.reset.ctx.keylen = 0 ∧
  State.reset.phase = .Zeroed ∧
  State.reset.commandPort = [] ∧
  State.reset.responsePort = [] ∧
  (∀ s : State, s.hardwareReset = { State.reset with freeDraws := s.freeDraws }) ∧
  ∀ s : State, ∃ t, exec .clear s = .next t ∧ t.ctx = State.reset.ctx ∧ t.phase = State.reset.phase

/-- The invariants below hold at reset. -/
def Obligations.ResetMeetsInvariants : Prop :=
  CanonicalTable State.reset ∧ CounterAligned State.reset ∧ ZeroedIsZero State.reset ∧
    WindowsCacheTheTable State.reset

/-- Log entry 1: every step keeps the table in canonical form (addresses rising and below 1024, no zero listed). -/
def Obligations.StepKeepsCanonicalTable : Prop :=
  ∀ s t, CanonicalTable s → step s = .next t → CanonicalTable t

/-- 10_state.md section 3 (R30, the spec's own inference from R25): in phases Zeroed and Ready the counter stays a
multiple of 16. -/
def Obligations.StepKeepsCounterAligned : Prop :=
  ∀ s t, CounterAligned s → step s = .next t → CounterAligned t

/-- 10_state.md R28, its table, with R36: as long as the phase is Zeroed every Context field but the counter is zero,
whatever commands run. -/
def Obligations.StepKeepsZeroedContextZero : Prop :=
  ∀ s t, ZeroedIsZero s → step s = .next t → ZeroedIsZero t

/-- 10_state.md section 2 (R29, the spec's own inference): in phases Zeroed and Ready each window holds the 16 words the
latest call on its half wrote; the alignment of the counter is the invariant it needs. -/
def Obligations.StepKeepsWindowsCachingTheTable : Prop :=
  ∀ s t, CounterAligned s → WindowsCacheTheTable s → step s = .next t → WindowsCacheTheTable t

/-! ## The Context commands -/

/-- 40_context_ops.md R80: CLEAR completes in every phase; every Context field is zero afterwards, the phase is Zeroed
and the response is 00; a GEN after it returns all-zero keystream. That `freeDraws` is unchanged is said of the model's
own field (log entry 5) and is no part of the rule. -/
def Obligations.ClearZeroesTheContext : Prop :=
  ∀ s, ∃ t, exec .clear s = .next t ∧
    (∀ a, t.ctx.T a = 0) ∧
    (∀ k, t.ctx.F .X k = 0 ∧ t.ctx.F .Y k = 0) ∧
    (∀ j, Buffer.read t.ctx.key j = 0 ∧ Buffer.read t.ctx.iv j = 0) ∧
    t.ctx.keylen = 0 ∧ t.ctx.counter = 0 ∧ t.phase = .Zeroed ∧
    t.responsePort = s.responsePort ++ [0x00] ∧ t.commandPort = s.commandPort ∧ t.freeDraws = s.freeDraws ∧
    ∃ u, exec .gen t = .next u ∧ u.responsePort = t.responsePort ++ 0x00 :: List.replicate 64 0x00

/-- 40_context_ops.md R81: RELEASE completes unless the phase is Released; the phase is Released afterwards and the
response is 00. Nothing is said of the Context's contents, which are "any value". In phase Released it raises
`NotUsable`. -/
def Obligations.ReleaseEntersReleased : Prop :=
  ∀ s,
    (s.phase ≠ .Released → ∃ t, exec .release s = .next t ∧ t.phase = .Released ∧
      t.responsePort = s.responsePort ++ [0x00] ∧ t.commandPort = s.commandPort) ∧
    (s.phase = .Released →
      exec .release s = .refused (.notUsable { s with responsePort := s.responsePort ++ [0x02] }))

/-! ## Exceptions and the lifecycle -/

/-- 60_exceptions.md R141: a SETUP packet with KEYLEN above 16 or 0 (the phase not being Released) is consumed, leaves
the phase Undefined and is answered 01; the run goes on. The Context is any value: nothing is said of it. -/
def Obligations.BadKeyLengthLeavesUndefined : Prop :=
  ∀ (s : State) (key : List Byte) (iv : Vector Byte 16) (rest : List Byte),
    decode s.commandPort = .ok (.setup key iv, rest) → s.phase ≠ .Released →
    (key.length = 0 ∨ 16 < key.length) →
    ∃ t, step s = .next t ∧ t.phase = .Undefined ∧
      t.responsePort = s.responsePort ++ [0x01] ∧ t.commandPort = rest

/-- 60_exceptions.md R142: a whole packet's command is refused exactly when the phase forbids it, the packet being
consumed, 02 being sent and nothing else changing. -/
def Obligations.NotUsableExactlyWhenThePhaseForbids : Prop :=
  ∀ (s : State) (i : Instr) (rest : List Byte), decode s.commandPort = .ok (i, rest) →
    ((∃ r, step s = .refused r) ↔
      (s.phase = .Undefined ∧ (i = .gen ∨ ∃ data, i = .xform data)) ∨ (s.phase = .Released ∧ i ≠ .clear)) ∧
    ∀ r, step s = .refused r →
      r = .notUsable { s with commandPort := rest, responsePort := s.responsePort ++ [0x02] }

/-- 60_exceptions.md R143: a reserved opcode is a fault in every phase; one byte is consumed, FF is sent and nothing
else changes. -/
def Obligations.ReservedOpcodeIsIllegalCommand : Prop :=
  ∀ (s : State) (b0 : Byte) (rest : List Byte), s.commandPort = b0 :: rest →
    (b0 = 0x00 ∨ 0x06 ≤ b0.toNat) →
    step s = .fault (.illegalCommand { s with commandPort := rest, responsePort := s.responsePort ++ [0xFF] })

/-- 60_exceptions.md R147: the order of the checks. Decoding comes first, in any phase; then the phase, so that SETUP
with any key length in phase Released is `NotUsable` and leaves the phase Released; then the key length. -/
def Obligations.ExceptionsInPriorityOrder : Prop :=
  (∀ (s : State) (b0 : Byte) (rest : List Byte), s.commandPort = b0 :: rest → (b0 = 0x00 ∨ 0x06 ≤ b0.toNat) →
    ∃ t, step s = .fault (.illegalCommand t) ∧ t.phase = s.phase) ∧
  (∀ (s : State) (key : List Byte) (iv : Vector Byte 16), s.phase = .Released →
    ∃ t, exec (.setup key iv) s = .refused (.notUsable t) ∧ t.phase = .Released ∧
      t.responsePort = s.responsePort ++ [0x02]) ∧
  (∀ (s : State) (key : List Byte) (iv : Vector Byte 16), s.phase ≠ .Released →
    ¬ (1 ≤ key.length ∧ key.length ≤ 16) →
    ∃ t, exec (.setup key iv) s = .next t ∧ t.phase = .Undefined ∧ t.responsePort = s.responsePort ++ [0x01])

/-- 10_state.md section 3 (R28): which commands a phase lets end with a next state, and the phase they leave. -/
def Obligations.PhaseTransitions : Prop :=
  (∀ (i : Instr) (s : State), (∃ t, exec i s = .next t) ↔
    (s.phase = .Undefined → i ≠ .gen ∧ ∀ data, i ≠ .xform data) ∧ (s.phase = .Released → i = .clear)) ∧
  ∀ (i : Instr) (s t : State), exec i s = .next t →
    t.phase =
      match i with
      | .clear => .Zeroed
      | .setup key _ => if 1 ≤ key.length ∧ key.length ≤ 16 then .Ready else .Undefined
      | .gen => s.phase
      | .xform _ => s.phase
      | .release => .Released

/-- 30_encoding.md R65: the one response packet of every command and of a reserved opcode: its status byte, and the
payload that follows status 00 only. -/
def Obligations.ResponsePackets : Prop :=
  (∀ (s : State) (i : Instr), ∃ status payload,
    (stateAfter s (exec i s)).responsePort = s.responsePort ++ status :: payload ∧
    (status = 0x00 ∨ payload = []) ∧
    match i with
    | .clear => status = 0x00 ∧ payload = []
    | .setup _ _ => (status = 0x00 ∨ status = 0x01 ∨ status = 0x02) ∧ payload = []
    | .gen =>
      (status = 0x00 ∧ payload = (gen16Words s.ctx).2.flatMap bytesLe ∧ payload.length = 64) ∨ status = 0x02
    | .xform data =>
      (status = 0x00 ∧ payload = (transform data s.ctx).2 ∧ payload.length = data.length) ∨ status = 0x02
    | .release => (status = 0x00 ∨ status = 0x02) ∧ payload = []) ∧
  ∀ (s : State) (b0 : Byte) (rest : List Byte), s.commandPort = b0 :: rest → (b0 = 0x00 ∨ 0x06 ≤ b0.toNat) →
    (stateAfter s (step s)).responsePort = s.responsePort ++ [0xFF]

/-! ## Packets -/

/-- 30_encoding.md R66: the packet length by opcode, computed from the leading bytes (bytes not yet there count as 0,
which cannot make a packet look complete); while the packet is incomplete there is no step and the state is unchanged,
and once it is complete the step executes a command on the state with exactly those bytes consumed, or raises
`IllegalCommand` with its one byte consumed. -/
def Obligations.CommandsWaitForTheWholePacket : Prop :=
  ∀ (s : State) (b0 : Byte) (rest : List Byte), s.commandPort = b0 :: rest →
    let b := fun n => s.commandPort.getD n 0
    let len :=
      if b0 = 0x02 then 18 + (b 1).toNat
      else if b0 = 0x04 then
        5 + ((b 1).toNat + 256 * (b 2).toNat + 65536 * (b 3).toNat + 16777216 * (b 4).toNat)
      else 1
    (s.commandPort.length < len → step s = .fault .packetIncomplete ∧ stateAfter s (step s) = s) ∧
    (len ≤ s.commandPort.length → ¬ (b0 = 0x00 ∨ 0x06 ≤ b0.toNat) →
      ∃ i, step s = exec i { s with commandPort := s.commandPort.drop len }) ∧
    (b0 = 0x00 ∨ 0x06 ≤ b0.toNat →
      ∃ t, step s = .fault (.illegalCommand t) ∧ t.commandPort = s.commandPort.drop len)

/-- 30_encoding.md sections 2 and 3: every well-formed command is read back from its packet, whatever bytes follow. -/
def Obligations.DecodeInvertsEncode : Prop :=
  ∀ (i : Instr) (rest : List Byte), i.wf = true → decode (encode i ++ rest) = .ok (i, rest)

/-- 30_encoding.md sections 2 to 4: the bytes a command was read from are its packet and nothing else, and only
well-formed commands are read: no two packets mean one command and no bit is dropped. -/
def Obligations.EncodeInvertsDecode : Prop :=
  ∀ (bs rest : List Byte) (i : Instr), decode bs = .ok (i, rest) → i.wf = true ∧ encode i ++ rest = bs

/-- 30_encoding.md R62, R63, R64: the position of every field of the three formats. -/
def Obligations.PacketLayouts : Prop :=
  (encode .clear = [0x01] ∧ encode .gen = [0x03] ∧ encode .release = [0x05]) ∧
  (∀ (key : List Byte) (iv : Vector Byte 16), key.length < 256 →
    let p := encode (.setup key iv)
    p.length = 18 + key.length ∧ p.getD 0 0 = 0x02 ∧ (p.getD 1 0).toNat = key.length ∧
    (∀ j < key.length, p.getD (2 + j) 0 = key.getD j 0) ∧
    ∀ j < 16, p.getD (2 + key.length + j) 0 = Buffer.read iv j) ∧
  ∀ data : List Byte, data.length < 2 ^ 32 →
    let p := encode (.xform data)
    p.length = 5 + data.length ∧ p.getD 0 0 = 0x04 ∧
    (p.getD 1 0).toNat = data.length % 256 ∧ (p.getD 2 0).toNat = data.length / 256 % 256 ∧
    (p.getD 3 0).toNat = data.length / 65536 % 256 ∧ (p.getD 4 0).toNat = data.length / 16777216 ∧
    ∀ j < data.length, p.getD (5 + j) 0 = data.getD j 0

/-- 30_encoding.md R68 and 95_test_vectors.md P5, V41, V60: a few packets written out byte by byte decode to what they
stand for. -/
def Obligations.SpecPacketsDecode : Prop :=
  decode [0x01] = .ok (.clear, []) ∧
  decode ([0x02, 0x05, 0x01, 0x02, 0x03, 0x04, 0x05] ++ List.replicate 16 0x00 ++ [0x03]) =
    .ok (.setup [0x01, 0x02, 0x03, 0x04, 0x05] (Vector.replicate 16 0), [0x03]) ∧
  decode [0x03, 0x03] = .ok (.gen, [0x03]) ∧
  decode [0x04, 0x06, 0x00, 0x00, 0x00, 0x48, 0x43, 0x2d, 0x31, 0x32, 0x38] =
    .ok (.xform [0x48, 0x43, 0x2d, 0x31, 0x32, 0x38], []) ∧
  decode [0x05] = .ok (.release, []) ∧
  decode [0x00] = .error .illegalCommand ∧ decode [0x06] = .error .illegalCommand ∧
  decode [0xFF, 0x01] = .error .illegalCommand

/-- 00_scope.md R4, 20_memory.md R53: a step runs the decoded command, to completion, on the state whose command port
has lost exactly its packet. -/
def Obligations.StepRunsTheDecodedCommand : Prop :=
  ∀ (s : State) (i : Instr) (rest : List Byte), decode s.commandPort = .ok (i, rest) →
    step s = exec i { s with commandPort := rest }

/-- 20_memory.md section 5 (R53, R55): a step that goes on consumed exactly one packet, and only appended to the
response port. -/
def Obligations.StepConsumesOnePacket : Prop :=
  ∀ s t, step s = .next t →
    (∃ i, encode i ++ t.commandPort = s.commandPort) ∧ ∃ response, response ≠ [] ∧
      t.responsePort = s.responsePort ++ response

/-! ## Word functions and addresses -/

/-- 00_scope.md R9: the rotations by their formulas, their duality, and that they are the bit rotations. -/
def Obligations.RotationsAreRotations : Prop :=
  ∀ (x : Word) (n : Nat), 0 < n → n < 32 →
    (rotr x n).toNat = (x.toNat / 2 ^ n + x.toNat * 2 ^ (32 - n)) % 2 ^ 32 ∧
    (rotl x n).toNat = x.toNat * 2 ^ n % 2 ^ 32 + x.toNat / 2 ^ (32 - n) ∧
    rotl x n = rotr x (32 - n) ∧
    rotr x n = x.rotateRight n ∧ rotl x n = x.rotateLeft n

/-- 42_updater_generator.md R112 with R111: g rotates right in P-mode and left in Q-mode, by 10, 23 and 8. -/
def Obligations.FunctionG : Prop :=
  ∀ (c0 : BitVec 10) (x y z : Word),
    g (sideOf c0) x y z =
      if c0.toNat < 512 then (x.rotateRight 10 ^^^ z.rotateRight 23) + y.rotateRight 8
      else (x.rotateLeft 10 ^^^ z.rotateLeft 23) + y.rotateLeft 8

/-- 41_table_initializer.md R95: the expansion functions as rotations and a logical shift, and the rule's examples. -/
def Obligations.FunctionsF1F2 : Prop :=
  (∀ x : Word, f1 x = x.rotateRight 7 ^^^ x.rotateRight 18 ^^^ (x >>> 3)) ∧
  (∀ x : Word, f2 x = x.rotateRight 17 ^^^ x.rotateRight 19 ^^^ (x >>> 10)) ∧
  f1 0 = 0 ∧ f2 0 = 0 ∧
  f1 0x00000001 = 0x02004000 ∧ f2 0x00000001 = 0x0000a000 ∧
  f1 0x80000000 = 0x11002000 ∧ f2 0x80000000 = 0x00205000 ∧
  f1 0xffffffff = 0x1fffffff ∧ f2 0xffffffff = 0x003fffff ∧
  f1 0x12345678 = 0xe7fce6ee ∧ f2 0x12345678 = 0xa1f78649

/-- 42_updater_generator.md R116: h adds two words of the other half, at offsets bits 7:0 and 256 + bits 23:16 of its
argument, so the other bits do not influence it; its argument at sub-step k is `F[(k+4) mod 16]`; and no slot of the
call lies in the half it reads. -/
def Obligations.FunctionH : Prop :=
  ∀ (c0 : BitVec 10) (c : Context),
    let Bh := if c0.toNat < 512 then 512 else 0
    (∀ w : Word, h (sideOf c0) c w = c.T (Bh + w.toNat % 256) + c.T (Bh + 256 + w.toNat / 65536 % 256)) ∧
    (∀ k < 16, hTerm (sideOf c0) c k = h (sideOf c0) c (c.F (sideOf c0).F ((k + 4) % 16))) ∧
    ∀ k, slot (sideOf c0) k < Bh ∨ Bh + 512 ≤ slot (sideOf c0) k

/-- 42_updater_generator.md R113: the slot and the word after it, cyclically within the active half; for an aligned
counter the slot never wraps; the two addresses differ. -/
def Obligations.SlotAddressing : Prop :=
  ∀ (c0 : BitVec 10) (k : Nat),
    let B := if c0.toNat < 512 then 0 else 512
    slot (sideOf c0) k = B + (c0.toNat % 512 + k) % 512 ∧
    nxt (sideOf c0) k = B + (c0.toNat % 512 + k + 1) % 512 ∧
    nxt (sideOf c0) k ≠ slot (sideOf c0) k ∧
    (c0.toNat % 16 = 0 → k < 16 → slot (sideOf c0) k = c0.toNat + k) ∧
    (c0.toNat % 512 = 496 → nxt (sideOf c0) 15 = B)

/-! ## The Updater/Generator -/

/-- 42_updater_generator.md R117: one update-mode sub-step, its operands read at its start: what it writes, and that it
changes nothing else. -/
def Obligations.UpdateSubstep : Prop :=
  ∀ (c0 : BitVec 10) (c : Context) (k : Nat), k < 16 →
    let sd := sideOf c0
    let d := updSubstep sd k c
    let x := c.F sd.F ((k + 13) % 16)
    let y := c.F sd.F ((k + 6) % 16)
    let z := c.T (nxt sd k)
    let w := c.F sd.F ((k + 4) % 16)
    let v := (c.T (slot sd k) + g sd x y z) ^^^ h sd c w
    (∀ a, d.T a = if a = slot sd k then v else c.T a) ∧
    (∀ j < 16, d.F sd.F j = if j = k then v else c.F sd.F j) ∧
    (∀ f, f ≠ sd.F → d.window f = c.window f) ∧
    d.counter = c.counter ∧ d.key = c.key ∧ d.keylen = c.keylen ∧ d.iv = c.iv

/-- 42_updater_generator.md R118: one generate-mode sub-step: the h term goes into the emitted word and not into the
stored word. -/
def Obligations.GenerateSubstep : Prop :=
  ∀ (c0 : BitVec 10) (c : Context) (out : List Word) (k : Nat), k < 16 →
    let sd := sideOf c0
    let d := (genSubstep sd k (c, out)).1
    let x := c.F sd.F ((k + 13) % 16)
    let y := c.F sd.F ((k + 6) % 16)
    let z := c.T (nxt sd k)
    let w := c.F sd.F ((k + 4) % 16)
    let v := c.T (slot sd k) + g sd x y z
    (genSubstep sd k (c, out)).2 = out ++ [h sd c w ^^^ v] ∧
    (∀ a, d.T a = if a = slot sd k then v else c.T a) ∧
    (∀ j < 16, d.F sd.F j = if j = k then v else c.F sd.F j) ∧
    (∀ f, f ≠ sd.F → d.window f = c.window f) ∧
    d.counter = c.counter ∧ d.key = c.key ∧ d.keylen = c.keylen ∧ d.iv = c.iv

/-- 42_updater_generator.md R120: both calls advance the counter by 16 modulo 1024. -/
def Obligations.CallsAdvanceTheCounter : Prop :=
  ∀ c : Context,
    (upd16 c).counter.toNat = (c.counter.toNat + 16) % 1024 ∧
    (gen16 c).1.counter.toNat = (c.counter.toNat + 16) % 1024

/-- 20_memory.md R44: keystream word k of a block supplies its bytes 4k to 4k+3, least significant byte first. -/
def Obligations.KeystreamBytesAreLittleEndian : Prop :=
  (∀ c : Context,
    (gen16Words c).2.length = 16 ∧ (gen16 c).2.length = 64 ∧
    ∀ k < 16, ∀ j < 4,
      ((gen16 c).2.getD (4 * k + j) 0).toNat = ((gen16Words c).2.getD k 0).toNat / 2 ^ (8 * j) % 256) ∧
  bytesLe 0x73150082 = [0x82, 0x00, 0x15, 0x73]

/-- 42_updater_generator.md sections 1 to 5 (R110 to R122): GEN completes in phases Zeroed and Ready with one generate
call (the equations of `GenCall`: which words are rewritten, by which values, which are emitted, and that nothing else
changes), answers 00 and the block, and leaves everything beside the Context as it was; in the other phases it raises
`NotUsable`. -/
def Obligations.GenRunsOneGenerateCall : Prop :=
  ∀ s : State,
    (s.phase = .Zeroed ∨ s.phase = .Ready →
      ∃ d ks, GenCall s.ctx d ks ∧ ks.length = 64 ∧
        exec .gen s = .next { s with ctx := d, responsePort := s.responsePort ++ 0x00 :: ks }) ∧
    (s.phase = .Undefined ∨ s.phase = .Released →
      exec .gen s = .refused (.notUsable { s with responsePort := s.responsePort ++ [0x02] }))

/-- 42_updater_generator.md section "Properties" (R124): a sub-step on the other half is the same sub-step with X and Y
exchanged and every table address moved by 512 modulo 1024, in update mode and in generate mode (where the same word is
emitted); the Q-mode side is the mirror of the P-mode side but for the rotation direction. -/
def Obligations.MirrorConstruction : Prop :=
  (∀ (c0 : BitVec 10) (c d : Context) (k : Nat), Mirrored c d →
    Mirrored (updSubstep (sideOf c0) k c) (updSubstep (sideOf c0).mirror k d)) ∧
  (∀ (c0 : BitVec 10) (c d : Context) (out : List Word) (k : Nat), Mirrored c d →
    Mirrored (genSubstep (sideOf c0) k (c, out)).1 (genSubstep (sideOf c0).mirror k (d, out)).1 ∧
    (genSubstep (sideOf c0).mirror k (d, out)).2 = (genSubstep (sideOf c0) k (c, out)).2) ∧
  ∀ c0 : BitVec 10, c0.toNat < 512 →
    sideOf (c0 + 512) = { (sideOf c0).mirror with dir := .left } ∧ (sideOf c0).dir = .right

/-- 42_updater_generator.md section 6 (R126, the spec's own inference): over the 64 calls that bring an aligned counter
back, every table word is the slot of exactly one sub-step. -/
def Obligations.EveryWordHasOneSlotPerCycle : Prop :=
  ∀ (c0 : BitVec 10), c0.toNat % 16 = 0 → ∀ a < 1024,
    ∃! nk : Nat × Nat, nk.1 < 64 ∧ nk.2 < 16 ∧ a = slot (sideOf (c0 + BitVec.ofNat 10 (16 * nk.1))) nk.2

/-- 10_state.md section 5 (R36, the spec's own inference): on a Zeroed Context, which the invariant
`StepKeepsZeroedContextZero` says is zero, GEN answers 00 and 64 zero bytes and changes nothing but the counter. -/
def Obligations.ZeroedContextGivesZeroKeystream : Prop :=
  ∀ s : State, ZeroedIsZero s → s.phase = .Zeroed →
    exec .gen s = .next { s with
      ctx := { s.ctx with counter := s.ctx.counter + 16 }
      responsePort := s.responsePort ++ 0x00 :: List.replicate 64 0x00 }

/-! ## The Cipher Driver -/

/-- 43_cipher_driver.md R131, R132, R133: XFORM completes in phases Zeroed and Ready; it makes one GEN16 call for each
started block of 64 bytes, and output byte i is input byte i xored with byte `i mod 64` of block `i / 64`; nothing
beside the Context and the response port changes. -/
def Obligations.XformXorsTheKeystream : Prop :=
  ∀ (s : State) (data : List Byte), s.phase = .Zeroed ∨ s.phase = .Ready →
    ∃ (c : Nat → Context) (out : List Byte),
      c 0 = s.ctx ∧ (∀ n, c (n + 1) = (gen16 (c n)).1) ∧
      exec (.xform data) s = .next { s with
        ctx := c ((data.length + 63) / 64), responsePort := s.responsePort ++ 0x00 :: out } ∧
      out.length = data.length ∧
      (∀ i < data.length, out.getD i 0 = data.getD i 0 ^^^ (gen16 (c (i / 64))).2.getD (i % 64) 0) ∧
      (c ((data.length + 63) / 64)).counter.toNat =
        (s.ctx.counter.toNat + 16 * ((data.length + 63) / 64)) % 1024

/-- 43_cipher_driver.md R134: XFORM of no data answers the status byte alone and changes nothing else; the phase check
is still made. -/
def Obligations.XformOfNothing : Prop :=
  ∀ s : State,
    (s.phase = .Zeroed ∨ s.phase = .Ready →
      exec (.xform []) s = .next { s with responsePort := s.responsePort ++ [0x00] }) ∧
    (s.phase = .Undefined ∨ s.phase = .Released →
      exec (.xform []) s = .refused (.notUsable { s with responsePort := s.responsePort ++ [0x02] }))

/-- 30_encoding.md section 5 (R72 (d), the spec's own inference), 70_reset_and_hazards.md section 3 (R168): GEN is XFORM
of 64 zero bytes, so both draw from one keystream. -/
def Obligations.GenIsXformOfAZeroBlock : Prop :=
  ∀ s : State, exec .gen s = exec (.xform (List.replicate 64 0)) s

/-- 43_cipher_driver.md section "State across commands" (R135): (a) splitting the data after a multiple of 64 bytes
changes neither the output bytes nor the state afterwards; (b) after any XFORM the state is that of the same data
padded to whole blocks, so that the next command starts at a fresh block. -/
def Obligations.ChunkingAtBlockBoundaries : Prop :=
  (∀ (s : State) (d1 d2 : List Byte), s.phase = .Zeroed ∨ s.phase = .Ready → 64 ∣ d1.length →
    ∃ t1 t2 t o1 o2,
      exec (.xform d1) s = .next t1 ∧ t1.responsePort = s.responsePort ++ 0x00 :: o1 ∧
      exec (.xform d2) t1 = .next t2 ∧ t2.responsePort = t1.responsePort ++ 0x00 :: o2 ∧
      exec (.xform (d1 ++ d2)) s = .next t ∧ t.responsePort = s.responsePort ++ 0x00 :: (o1 ++ o2) ∧
      t.ctx = t2.ctx ∧ t.phase = t2.phase ∧ o1.length = d1.length ∧ o2.length = d2.length) ∧
  ∀ (s t t' : State) (data : List Byte), exec (.xform data) s = .next t →
    exec (.xform (data ++ List.replicate ((64 - data.length % 64) % 64) 0)) s = .next t' → t'.ctx = t.ctx

/-- 43_cipher_driver.md section "State across commands" (R136): encrypting after a SETUP, and decrypting after another
SETUP with the same key and iv on whatever state the first run left, gives the data back; the table's canonical form is
the invariant `StepKeepsCanonicalTable`. -/
def Obligations.DecryptionInvertsEncryption : Prop :=
  ∀ (s : State) (key data : List Byte) (iv : Vector Byte 16), CanonicalTable s → s.phase ≠ .Released →
    1 ≤ key.length → key.length ≤ 16 →
    ∃ s1 s2 s3 s4 out,
      exec (.setup key iv) s = .next s1 ∧
      exec (.xform data) s1 = .next s2 ∧ s2.responsePort = s1.responsePort ++ 0x00 :: out ∧
      exec (.setup key iv) s2 = .next s3 ∧
      exec (.xform out) s3 = .next s4 ∧ s4.responsePort = s3.responsePort ++ 0x00 :: data

/-- The frame of GEN and XFORM (42_updater_generator.md section 1, 43_cipher_driver.md "The command"), of `n` generate
calls from the counter at entry, n being 1 for GEN and the number of started blocks for XFORM: every table word that is
no slot of those calls, every window that is on no call's side, the key and iv copies and keylen, the phase, the command
port and the model's draw counter are unchanged. -/
def Obligations.CipherCommandsFrame : Prop :=
  ∀ (s t : State) (i : Instr) (n : Nat), (i = .gen ∧ n = 1 ∨ ∃ data, i = .xform data ∧ n = (data.length + 63) / 64) →
    exec i s = .next t →
    (∀ a, (∀ m < n, ∀ k < 16, a ≠ slot (sideOf (s.ctx.counter + BitVec.ofNat 10 (16 * m))) k) →
      t.ctx.T a = s.ctx.T a) ∧
    (∀ f, (∀ m < n, f ≠ (sideOf (s.ctx.counter + BitVec.ofNat 10 (16 * m))).F) →
      t.ctx.window f = s.ctx.window f) ∧
    t.ctx.key = s.ctx.key ∧ t.ctx.keylen = s.ctx.keylen ∧ t.ctx.iv = s.ctx.iv ∧ t.phase = s.phase ∧
    t.commandPort = s.commandPort ∧ t.freeDraws = s.freeDraws

/-! ## The Table Initializer -/

/-- 41_table_initializer.md R93, R94: the packed words, `key[j mod keylen]` at byte j of T[0..7] and `iv[j mod 16]` at
byte j of T[8..15], and the frame of step 1. -/
def Obligations.PackingStep : Prop :=
  ∀ c : Context,
    let d := packKeyAndIv c
    let kb := fun j => Buffer.read c.key (j % c.keylen.val)
    let ib := fun j => Buffer.read c.iv (j % 16)
    (∀ i < 8, d.T i = le32 (kb (4 * i)) (kb (4 * i + 1)) (kb (4 * i + 2)) (kb (4 * i + 3))) ∧
    (∀ i < 8, d.T (8 + i) = le32 (ib (4 * i)) (ib (4 * i + 1)) (ib (4 * i + 2)) (ib (4 * i + 3))) ∧
    (∀ a, 16 ≤ a → d.T a = c.T a) ∧
    { d with table := c.table } = c

/-- 41_table_initializer.md R96: step 2's recurrence, in terms of the table it leaves, and its frame. -/
def Obligations.FirstExpansionStep : Prop :=
  ∀ c : Context,
    let d := firstExpansion c
    (∀ i, 16 ≤ i → i ≤ 271 →
      d.T i = f2 (d.T (i - 2)) + d.T (i - 7) + f1 (d.T (i - 15)) + d.T (i - 16) + BitVec.ofNat 32 i) ∧
    (∀ a, a < 16 ∨ 271 < a → d.T a = c.T a) ∧
    { d with table := c.table } = c

/-- 41_table_initializer.md R97: step 3 copies T[256..271] to T[0..15] and changes nothing else. -/
def Obligations.WhiteningStep : Prop :=
  ∀ c : Context,
    let d := whiten c
    (∀ i < 16, d.T i = c.T (256 + i)) ∧ (∀ a, 16 ≤ a → d.T a = c.T a) ∧ { d with table := c.table } = c

/-- 41_table_initializer.md section "Steps 2 to 4: expansion" (R98): step 4's recurrence with constant 256 + i, its
frame, that no word but the 16 that step 3 copied influences the words it writes, and (the spec's own inference) that
steps 2 to 4 together compute one sequence W over the 16 packed words, of which W[256..1279] becomes the table. -/
def Obligations.SecondExpansionStep : Prop :=
  (∀ c : Context,
    let d := secondExpansion c
    (∀ i, 16 ≤ i → i ≤ 1023 →
      d.T i = f2 (d.T (i - 2)) + d.T (i - 7) + f1 (d.T (i - 15)) + d.T (i - 16) + BitVec.ofNat 32 (256 + i)) ∧
    (∀ a, a < 16 ∨ 1023 < a → d.T a = c.T a) ∧
    { d with table := c.table } = c) ∧
  (∀ c c' : Context, (∀ a < 16, c.T a = c'.T a) →
    ∀ a < 1024, (secondExpansion c).T a = (secondExpansion c').T a) ∧
  ∀ c : Context, ∃ W : Nat → Word, IsExpansionOf c.T W ∧
    ∀ a < 1024, (secondExpansion (whiten (firstExpansion c))).T a = W (256 + a)

/-- 41_table_initializer.md R99: step 5 seeds the windows from the last 16 words of each half; the table and everything
else are not changed. -/
def Obligations.SeedingStep : Prop :=
  ∀ c : Context,
    let d := seedWindows c
    (∀ k < 16, d.F .X k = c.T (496 + k) ∧ d.F .Y k = c.T (1008 + k)) ∧
    { d with feedbackP := c.feedbackP, feedbackQ := c.feedbackQ } = c

/-- 41_table_initializer.md section "Step 6: warm-up" (R100): 64 update calls from counter 0 to counter 0, call n at
counter 16 n. -/
def Obligations.WarmUpIs64UpdateCalls : Prop :=
  ∀ c : Context, ∃ cs : Nat → Context,
    cs 0 = { c with counter := 0 } ∧
    (∀ n < 64, (cs n).counter.toNat = 16 * n ∧ UpdCall (cs n) (cs (n + 1))) ∧
    warmUp c = cs 64 ∧ (warmUp c).counter = 0

/-- 41_table_initializer.md, the whole of SETUP (R90 to R100) with 10_state.md R26 and R27: SETUP with a legal key length
completes in every phase but Released. Its operands are copied, key bytes beyond KEYLEN keeping their old value; the
table before the warm-up is words 256 to 1279 of the expansion sequence over the packed key and iv; the windows are
seeded from it; 64 update calls follow; the counter ends at 0; the phase is Ready; the response is 00. How a short key
fills the 32 packed bytes is the default of the parameter KEYPACK, which the model fixes (log entry 7); that `freeDraws`
is unchanged is said of the model's own field (log entry 5). -/
def Obligations.SetupFollowsTheSixSteps : Prop :=
  ∀ (s : State) (key : List Byte) (iv : Vector Byte 16), s.phase ≠ .Released → 1 ≤ key.length → key.length ≤ 16 →
    ∃ (t : State) (W : Nat → Word) (cs : Nat → Context),
      exec (.setup key iv) s = .next t ∧
      IsExpansionOf (packedWord key iv) W ∧
      (∀ a < 1024, (cs 0).T a = W (256 + a)) ∧
      (∀ k < 16, (cs 0).F .X k = W (752 + k) ∧ (cs 0).F .Y k = W (1264 + k)) ∧
      (∀ n < 64, (cs n).counter.toNat = 16 * n ∧ UpdCall (cs n) (cs (n + 1))) ∧
      t.ctx = cs 64 ∧ t.ctx.counter = 0 ∧
      t.ctx.keylen.val = key.length ∧
      (∀ j < 16, Buffer.read t.ctx.key j = if j < key.length then key.getD j 0 else Buffer.read s.ctx.key j) ∧
      t.ctx.iv = iv ∧ t.phase = .Ready ∧
      t.responsePort = s.responsePort ++ [0x00] ∧ t.commandPort = s.commandPort ∧ t.freeDraws = s.freeDraws

/-- 41_table_initializer.md section "Result" (R101): table, windows and counter after SETUP depend on the packet alone,
not on the phase, the previous Context or anything else. The canonical form of both tables is the invariant
`StepKeepsCanonicalTable`. -/
def Obligations.SetupForgetsThePriorState : Prop :=
  ∀ (s s' : State) (key : List Byte) (iv : Vector Byte 16), CanonicalTable s → CanonicalTable s' →
    s.phase ≠ .Released → s'.phase ≠ .Released → 1 ≤ key.length → key.length ≤ 16 →
    ∃ t t', exec (.setup key iv) s = .next t ∧ exec (.setup key iv) s' = .next t' ∧
      t.ctx.table = t'.ctx.table ∧ t.ctx.feedbackP = t'.ctx.feedbackP ∧ t.ctx.feedbackQ = t'.ctx.feedbackQ ∧
      t.ctx.counter = t'.ctx.counter ∧ t.phase = t'.phase

/-- 10_state.md section 3 (R26, R27): the copies of key and iv and keylen are unobservable: commands on two states that
differ only in them end in outcomes of one class, with the same responses, again differing only in them. For RELEASE
and for SETUP with an illegal key length, that the two Contexts left agree is the model's choice and not the spec's: it
holds because a draw depends on its number alone (log entry 5), where U1 and U2 make each a fresh draw. -/
def Obligations.KeyAndIvCopiesAreUnobservable : Prop :=
  ∀ (s : State) (key : Buffer) (keylen : Fin 17) (iv : Buffer) (i : Instr),
    OutcomesAgree (exec i s) (exec i (s.withKeyCopies key keylen iv))
end

