-- ==== Sys2Proof/Laws/Memory.lean ====
section
/-! SUPPORT. The laws of the table, the windows and the buffers: a read after a write, the canonical form, and that
canonical tables are equal when they read the same. -/

namespace Sys2Proof.Machine

@[simp] theorem Memory.read_nil (a : Nat) : Memory.read [] a = Memory.unlisted := rfl

theorem Memory.read_eq_unlisted {m : Memory} {a : Nat} (hm : ∀ cell ∈ m, cell.1 ≠ a) :
    Memory.read m a = Memory.unlisted := by
  induction m with
  | nil => rfl
  | cons cell m ih =>
    obtain ⟨b, v⟩ := cell
    have hb : b ≠ a := hm (b, v) (by simp)
    simp only [Memory.read, if_neg hb]
    exact ih fun q hq => hm q (by simp [hq])

theorem Memory.mem_erase {m : Memory} {a : Nat} {cell : Nat × Word} :
    cell ∈ Memory.erase m a ↔ cell ∈ m ∧ cell.1 ≠ a := by
  simp [Memory.erase]

theorem Memory.read_erase_same (m : Memory) (a : Nat) : Memory.read (Memory.erase m a) a = Memory.unlisted :=
  Memory.read_eq_unlisted fun _ hc => (Memory.mem_erase.1 hc).2

theorem Memory.read_erase_other (m : Memory) {a b : Nat} (hab : b ≠ a) :
    Memory.read (Memory.erase m a) b = Memory.read m b := by
  induction m with
  | nil => rfl
  | cons cell m ih =>
    obtain ⟨x, v⟩ := cell
    by_cases hx : x = a
    · subst hx
      simpa [Memory.erase, Memory.read, hab.symm] using ih
    · have : Memory.erase ((x, v) :: m) a = (x, v) :: Memory.erase m a := by simp [Memory.erase, hx]
      simp only [this, Memory.read, ih]

theorem Memory.read_insert_same {m : Memory} {a : Nat} (v : Word) (hm : ∀ cell ∈ m, cell.1 ≠ a) :
    Memory.read (Memory.insert m a v) a = v := by
  induction m with
  | nil => simp [Memory.insert, Memory.read]
  | cons cell m ih =>
    obtain ⟨b, u⟩ := cell
    have hb : b ≠ a := hm (b, u) (by simp)
    by_cases hab : a < b
    · simp [Memory.insert, hab, Memory.read]
    · simp only [Memory.insert, if_neg hab, Memory.read, if_neg hb]
      exact ih fun q hq => hm q (by simp [hq])

theorem Memory.read_insert_other (m : Memory) {a b : Nat} (v : Word) (hab : b ≠ a) :
    Memory.read (Memory.insert m a v) b = Memory.read m b := by
  induction m with
  | nil => simp [Memory.insert, Memory.read, hab.symm]
  | cons cell m ih =>
    obtain ⟨x, u⟩ := cell
    by_cases hax : a < x
    · simp [Memory.insert, hax, Memory.read, hab.symm]
    · simp only [Memory.insert, if_neg hax, Memory.read, ih]

/-- 20_memory.md R41: a read of the address just written gives the value written. -/
@[simp] theorem Memory.read_write_same (m : Memory) (a : Nat) (v : Word) :
    Memory.read (Memory.write m a v) a = v := by
  unfold Memory.write
  split
  · next hv => rw [Memory.read_erase_same, hv]
  · exact Memory.read_insert_same v fun _ hc => (Memory.mem_erase.1 hc).2

/-- R41: a write leaves every other address alone. -/
theorem Memory.read_write_other (m : Memory) {a b : Nat} (v : Word) (hab : b ≠ a) :
    Memory.read (Memory.write m a v) b = Memory.read m b := by
  unfold Memory.write
  split
  · exact Memory.read_erase_other m hab
  · rw [Memory.read_insert_other _ v hab, Memory.read_erase_other m hab]

theorem Memory.read_write (m : Memory) (a b : Nat) (v : Word) :
    Memory.read (Memory.write m a v) b = if b = a then v else Memory.read m b := by
  split
  · next hb => rw [hb, Memory.read_write_same]
  · next hb => exact Memory.read_write_other m v hb

/-! ## The canonical form -/

theorem Memory.wf_nil : Memory.wf [] := ⟨List.Pairwise.nil, fun _ hc => absurd hc (by simp)⟩

theorem Memory.mem_insert {m : Memory} {a : Nat} {v : Word} {cell : Nat × Word}
    (hc : cell ∈ Memory.insert m a v) : cell = (a, v) ∨ cell ∈ m := by
  induction m with
  | nil => exact .inl (by simpa [Memory.insert] using hc)
  | cons q m ih =>
    obtain ⟨b, u⟩ := q
    by_cases hab : a < b
    · simpa [Memory.insert, hab] using hc
    · simp only [Memory.insert, if_neg hab, List.mem_cons] at hc
      rcases hc with rfl | hc
      · simp
      · rcases ih hc with h | h <;> simp [h]

theorem Memory.pairwise_insert {m : Memory} {a : Nat} (v : Word) (hm : m.Pairwise fun p q => p.1 < q.1)
    (ha : ∀ cell ∈ m, cell.1 ≠ a) : (Memory.insert m a v).Pairwise fun p q => p.1 < q.1 := by
  induction m with
  | nil => simp [Memory.insert]
  | cons q m ih =>
    obtain ⟨b, u⟩ := q
    rw [List.pairwise_cons] at hm
    by_cases hab : a < b
    · simp only [Memory.insert, if_pos hab, List.pairwise_cons, List.mem_cons]
      refine ⟨?_, hm⟩
      rintro p (rfl | hp)
      · exact hab
      · exact Nat.lt_trans hab (hm.1 p hp)
    · simp only [Memory.insert, if_neg hab, List.pairwise_cons]
      refine ⟨?_, ih hm.2 fun q hq => ha q (by simp [hq])⟩
      intro p hp
      rcases Memory.mem_insert hp with rfl | hp
      · have hne : b ≠ a := ha (b, u) (by simp)
        exact lt_of_le_of_ne (Nat.le_of_not_lt hab) hne
      · exact hm.1 p hp

/-- Every write inside the table space keeps the canonical form. -/
theorem Memory.wf_write {m : Memory} (hm : Memory.wf m) {a : Nat} (ha : a < 1024) (v : Word) :
    Memory.wf (Memory.write m a v) := by
  have hpair : (Memory.erase m a).Pairwise fun p q => p.1 < q.1 := hm.1.filter _
  have hcell : ∀ cell ∈ Memory.erase m a, cell.1 < 1024 ∧ cell.2 ≠ Memory.unlisted :=
    fun cell hc => hm.2 cell (Memory.mem_erase.1 hc).1
  unfold Memory.write
  split
  · exact ⟨hpair, hcell⟩
  · next hv =>
    refine ⟨Memory.pairwise_insert v hpair fun _ hc => (Memory.mem_erase.1 hc).2, fun cell hc => ?_⟩
    rcases Memory.mem_insert hc with rfl | hc
    · exact ⟨ha, hv⟩
    · exact hcell cell hc

/-- An address outside the table space reads as unlisted in a canonical table. -/
theorem Memory.read_outside {m : Memory} (hm : Memory.wf m) {a : Nat} (ha : 1024 ≤ a) :
    Memory.read m a = Memory.unlisted :=
  Memory.read_eq_unlisted fun cell hc hEq => absurd (hm.2 cell hc).1 (by omega)

/-- Canonical tables that read the same everywhere are the same data. -/
theorem Memory.ext_of_read {m m' : Memory} (hm : Memory.wf m) (hm' : Memory.wf m')
    (hr : ∀ a, Memory.read m a = Memory.read m' a) : m = m' := by
  induction m generalizing m' with
  | nil =>
    cases m' with
    | nil => rfl
    | cons q m' =>
      have h := hr q.1
      simp only [Memory.read, if_pos] at h
      exact absurd h.symm (hm'.2 q (by simp)).2
  | cons p m ih =>
    obtain ⟨a, v⟩ := p
    have hp := List.pairwise_cons.1 hm.1
    have hv : v ≠ Memory.unlisted := (hm.2 (a, v) (by simp)).2
    cases m' with
    | nil =>
      have h := hr a
      simp only [Memory.read, if_pos] at h
      exact absurd h hv
    | cons q m' =>
      obtain ⟨b, u⟩ := q
      have hq := List.pairwise_cons.1 hm'.1
      have hu : u ≠ Memory.unlisted := (hm'.2 (b, u) (by simp)).2
      have hab : a = b := by
        rcases Nat.lt_trichotomy a b with hlt | heq | hgt
        · have h := hr a
          have hb : b ≠ a := by omega
          simp only [Memory.read, if_pos, if_neg hb] at h
          rw [Memory.read_eq_unlisted fun c hc hEq => absurd (hq.1 c hc) (by omega)] at h
          exact absurd h hv
        · exact heq
        · have h := hr b
          have hb : a ≠ b := by omega
          simp only [Memory.read, if_pos, if_neg hb] at h
          rw [Memory.read_eq_unlisted fun c hc hEq => absurd (hp.1 c hc) (by omega)] at h
          exact absurd h.symm hu
      subst hab
      have hvu : v = u := by simpa [Memory.read] using hr a
      subst hvu
      have htail : ∀ x, Memory.read m x = Memory.read m' x := by
        intro x
        by_cases hx : a = x
        · subst hx
          rw [Memory.read_eq_unlisted fun c hc hEq => absurd (hp.1 c hc) (by omega),
            Memory.read_eq_unlisted fun c hc hEq => absurd (hq.1 c hc) (by omega)]
        · simpa [Memory.read, hx] using hr x
      rw [ih ⟨hp.2, fun c hc => hm.2 c (by simp [hc])⟩ ⟨hq.2, fun c hc => hm'.2 c (by simp [hc])⟩ htail]

/-! ## The loop -/

@[simp] theorem forUp_zero {σ : Type} (body : Nat → σ → σ) (a : Nat) (s : σ) : forUp body a 0 s = s := rfl

theorem forUp_succ {σ : Type} (body : Nat → σ → σ) (a n : Nat) (s : σ) :
    forUp body a (n + 1) s = body (a + n) (forUp body a n s) := rfl

/-- What holds at the start and is carried from each index to the next holds at the end. -/
theorem forUp_induct {σ : Type} (P : Nat → σ → Prop) {body : Nat → σ → σ} {a N : Nat} {s : σ} (h0 : P 0 s)
    (hstep : ∀ n < N, ∀ t, P n t → P (n + 1) (body (a + n) t)) : P N (forUp body a N s) := by
  induction N with
  | zero => exact h0
  | succ N ih =>
    exact hstep N (Nat.lt_succ_self N) _ (ih fun n hn t ht => hstep n (Nat.lt_succ_of_lt hn) t ht)

/-- Two loops in step keep a relation that each pair of turns keeps. -/
theorem forUp_rel {σ τ : Type} (R : σ → τ → Prop) {f : Nat → σ → σ} {g : Nat → τ → τ} {a N : Nat} {s : σ} {t : τ}
    (h0 : R s t) (hs : ∀ i s t, a ≤ i → i < a + N → R s t → R (f i s) (g i t)) : R (forUp f a N s) (forUp g a N t) := by
  induction N with
  | zero => exact h0
  | succ N ih => exact hs _ _ _ (by omega) (by omega) (ih fun i s t h1 h2 h => hs i s t h1 (by omega) h)

/-- What every index keeps is kept by the loop. -/
theorem forUp_keeps {σ : Type} (P : σ → Prop) {body : Nat → σ → σ} {a N : Nat} {s : σ} (h0 : P s)
    (hstep : ∀ i, a ≤ i → i < a + N → ∀ t, P t → P (body i t)) : P (forUp body a N s) :=
  forUp_induct (fun _ => P) h0 fun n hn t ht => hstep (a + n) (Nat.le_add_right a n) (by omega) t ht

theorem Memory.wf_ofFn (f : Nat → Word) : Memory.wf (Memory.ofFn f) :=
  forUp_keeps Memory.wf Memory.wf_nil fun i _ hi m hm => Memory.wf_write hm (by omega) (f i)

theorem Memory.read_ofFn (f : Nat → Word) {a : Nat} (ha : a < 1024) : Memory.read (Memory.ofFn f) a = f a := by
  have key : ∀ b, Memory.read (Memory.ofFn f) b = if b < 1024 then f b else Memory.unlisted := by
    refine forUp_induct (fun n m => ∀ b, Memory.read m b = if b < n then f b else Memory.unlisted)
      (fun b => by simp) fun n _ m hm b => ?_
    rw [Nat.zero_add, Memory.read_write, hm]
    rcases Nat.lt_trichotomy b n with h | rfl | h
    · rw [if_neg (by omega), if_pos h, if_pos (by omega)]
    · rw [if_pos rfl, if_pos (by omega)]
    · rw [if_neg (by omega), if_neg (by omega), if_neg (by omega)]
  rw [key, if_pos ha]

/-! ## Windows and buffers -/

theorem Window.read_write (w : Window) (k j : Nat) (v : Word) :
    Window.read (Window.write w k v) j = if j % 16 = k % 16 then v else Window.read w j := by
  simp [Window.read, Window.write, Vector.getElem_set, eq_comm]

@[simp] theorem Window.read_replicate (v : Word) (k : Nat) : Window.read (Vector.replicate 16 v) k = v := by
  simp [Window.read]

theorem Window.ext_of_read {w w' : Window} (hr : ∀ k < 16, Window.read w k = Window.read w' k) : w = w' := by
  refine Vector.ext fun k hk => ?_
  have := hr k hk
  simpa [Window.read, Nat.mod_eq_of_lt hk] using this

theorem Buffer.read_copyIn (b : Buffer) (bs : List Byte) (j : Nat) :
    Buffer.read (Buffer.copyIn b bs) j = if j % 16 < bs.length then bs.getD (j % 16) 0 else Buffer.read b j := by
  simp [Buffer.read, Buffer.copyIn]

@[simp] theorem Buffer.read_replicate (v : Byte) (j : Nat) : Buffer.read (Vector.replicate 16 v) j = v := by
  simp [Buffer.read]

end Sys2Proof.Machine
end

