-- ==== Sys2Proof/Laws/Operands.lean ====
section
/-! SUPPORT. Where the addresses of a sub-step lie: inside the table space, distinct from each other, and h's lookups in
the half that the call does not rewrite (20_memory.md R46, 42_updater_generator.md R113, R116, R123). -/

namespace Sys2Proof.Machine

/-- R111: the two sides. -/
theorem sideOf_cases (c0 : BitVec 10) :
    (c0.toNat < 512 ∧ sideOf c0 = { cc := c0.toNat % 512, B := 0, F := .X, dir := .right, Bh := 512 }) ∨
    (512 ≤ c0.toNat ∧ sideOf c0 = { cc := c0.toNat % 512, B := 512, F := .Y, dir := .left, Bh := 0 }) := by
  by_cases hc : c0.toNat < 512
  · exact .inl ⟨hc, by simp [sideOf, hc]⟩
  · exact .inr ⟨by omega, by simp [sideOf, hc]⟩

theorem sideOf_bases (c0 : BitVec 10) :
    ((sideOf c0).B = 0 ∧ (sideOf c0).Bh = 512) ∨ ((sideOf c0).B = 512 ∧ (sideOf c0).Bh = 0) := by
  rcases sideOf_cases c0 with ⟨-, h⟩ | ⟨-, h⟩ <;> simp [h]

theorem slot_range (c0 : BitVec 10) (k : Nat) :
    (sideOf c0).B ≤ slot (sideOf c0) k ∧ slot (sideOf c0) k < (sideOf c0).B + 512 := by
  have := Nat.mod_lt ((sideOf c0).cc + k) (show 0 < 512 by decide)
  unfold slot
  omega

theorem nxt_range (c0 : BitVec 10) (k : Nat) :
    (sideOf c0).B ≤ nxt (sideOf c0) k ∧ nxt (sideOf c0) k < (sideOf c0).B + 512 := by
  have := Nat.mod_lt ((sideOf c0).cc + k + 1) (show 0 < 512 by decide)
  unfold nxt
  omega

/-- R46: no slot lies outside the table space. -/
theorem slot_lt (c0 : BitVec 10) (k : Nat) : slot (sideOf c0) k < 1024 := by
  have := slot_range c0 k
  have := sideOf_bases c0
  omega

theorem slot_ne {sd : Side} {j k : Nat} (hj : j < 16) (hk : k < 16) (hjk : j ≠ k) : slot sd j ≠ slot sd k := by
  unfold slot
  omega

/-- R123: the word after the slot of a sub-step is none of the slots rewritten so far. -/
theorem nxt_ne_slot {sd : Side} {j k : Nat} (hk : k < 16) (hj : j ≤ k) : nxt sd k ≠ slot sd j := by
  unfold nxt slot
  omega

theorem hAddrLo_range (sd : Side) (w : Word) : sd.Bh ≤ hAddrLo sd w ∧ hAddrLo sd w < sd.Bh + 256 := by
  have := (lo8 w).isLt
  unfold hAddrLo
  omega

theorem hAddrHi_range (sd : Side) (w : Word) : sd.Bh + 256 ≤ hAddrHi sd w ∧ hAddrHi sd w < sd.Bh + 512 := by
  have := (mid8 w).isLt
  unfold hAddrHi
  omega

/-- R116: the active half is never the half h reads. -/
theorem hAddrLo_ne_slot (c0 : BitVec 10) (w : Word) (k : Nat) : hAddrLo (sideOf c0) w ≠ slot (sideOf c0) k := by
  have := slot_range c0 k
  have := hAddrLo_range (sideOf c0) w
  have := sideOf_bases c0
  omega

theorem hAddrHi_ne_slot (c0 : BitVec 10) (w : Word) (k : Nat) : hAddrHi (sideOf c0) w ≠ slot (sideOf c0) k := by
  have := slot_range c0 k
  have := hAddrHi_range (sideOf c0) w
  have := sideOf_bases c0
  omega

@[simp] theorem bytesLe_length (w : Word) : (bytesLe w).length = 4 := rfl

/-- Appending a byte below a number, as arithmetic. -/
theorem toNat_append_byte {n : Nat} (x : BitVec n) (b : Byte) : (x ++ b).toNat = 256 * x.toNat + b.toNat := by
  rw [BitVec.toNat_append, ← Nat.shiftLeft_add_eq_or_of_lt b.isLt, Nat.shiftLeft_eq]
  omega

/-- R7: `le32` as arithmetic. -/
theorem le32_toNat (b0 b1 b2 b3 : Byte) :
    (le32 b0 b1 b2 b3).toNat = b0.toNat + 256 * b1.toNat + 65536 * b2.toNat + 16777216 * b3.toNat := by
  simp only [le32, toNat_append_byte]
  omega

/-- R7: `le32` and `bytes_le` are inverse. -/
theorem le32_bytesLe (w : Word) :
    le32 (w.extractLsb' 0 8) (w.extractLsb' 8 8) (w.extractLsb' 16 8) (w.extractLsb' 24 8) = w := by
  apply BitVec.eq_of_toNat_eq
  have := w.isLt
  simp only [le32_toNat, BitVec.extractLsb'_toNat, Nat.shiftRight_eq_div_pow]
  omega

/-- R7: `le32(b0, b1, b2, b3)` gives back its bytes. -/
theorem bytesLe_le32 (b0 b1 b2 b3 : Byte) : bytesLe (le32 b0 b1 b2 b3) = [b0, b1, b2, b3] := by
  have := b0.isLt
  have := b1.isLt
  have := b2.isLt
  have := b3.isLt
  simp only [bytesLe, List.cons.injEq, and_true]
  refine ⟨?_, ?_, ?_, ?_⟩ <;> apply BitVec.eq_of_toNat_eq <;>
    simp only [le32_toNat, BitVec.extractLsb'_toNat, Nat.shiftRight_eq_div_pow] <;> omega

end Sys2Proof.Machine
end

