-- ==== Sys2Proof/Laws/State.lean ====
section
/-! SUPPORT. One lemma per field per update of State and Context, so that no proof unfolds a record update. -/

namespace Sys2Proof.Machine

/-! ## respond -/

@[simp] theorem State.respond_ctx (s : State) (bs : List Byte) : (s.respond bs).ctx = s.ctx := rfl
@[simp] theorem State.respond_phase (s : State) (bs : List Byte) : (s.respond bs).phase = s.phase := rfl
@[simp] theorem State.respond_commandPort (s : State) (bs : List Byte) :
    (s.respond bs).commandPort = s.commandPort := rfl
@[simp] theorem State.respond_responsePort (s : State) (bs : List Byte) :
    (s.respond bs).responsePort = s.responsePort ++ bs := rfl
@[simp] theorem State.respond_freeDraws (s : State) (bs : List Byte) : (s.respond bs).freeDraws = s.freeDraws := rfl

/-! ## setT -/

@[simp] theorem Context.setT_table (c : Context) (a : Nat) (v : Word) :
    (c.setT a v).table = Memory.write c.table a v := rfl
@[simp] theorem Context.setT_feedbackP (c : Context) (a : Nat) (v : Word) :
    (c.setT a v).feedbackP = c.feedbackP := rfl
@[simp] theorem Context.setT_feedbackQ (c : Context) (a : Nat) (v : Word) :
    (c.setT a v).feedbackQ = c.feedbackQ := rfl
@[simp] theorem Context.setT_counter (c : Context) (a : Nat) (v : Word) : (c.setT a v).counter = c.counter := rfl
@[simp] theorem Context.setT_key (c : Context) (a : Nat) (v : Word) : (c.setT a v).key = c.key := rfl
@[simp] theorem Context.setT_keylen (c : Context) (a : Nat) (v : Word) : (c.setT a v).keylen = c.keylen := rfl
@[simp] theorem Context.setT_iv (c : Context) (a : Nat) (v : Word) : (c.setT a v).iv = c.iv := rfl
@[simp] theorem Context.setT_window (c : Context) (a : Nat) (v : Word) (f : WindowName) :
    (c.setT a v).window f = c.window f := by cases f <;> rfl
@[simp] theorem Context.setT_F (c : Context) (a : Nat) (v : Word) (f : WindowName) (k : Nat) :
    (c.setT a v).F f k = c.F f k := by cases f <;> rfl

/-! ## setF -/

@[simp] theorem Context.setF_table (c : Context) (f : WindowName) (k : Nat) (v : Word) :
    (c.setF f k v).table = c.table := by cases f <;> rfl
@[simp] theorem Context.setF_counter (c : Context) (f : WindowName) (k : Nat) (v : Word) :
    (c.setF f k v).counter = c.counter := by cases f <;> rfl
@[simp] theorem Context.setF_key (c : Context) (f : WindowName) (k : Nat) (v : Word) :
    (c.setF f k v).key = c.key := by cases f <;> rfl
@[simp] theorem Context.setF_keylen (c : Context) (f : WindowName) (k : Nat) (v : Word) :
    (c.setF f k v).keylen = c.keylen := by cases f <;> rfl
@[simp] theorem Context.setF_iv (c : Context) (f : WindowName) (k : Nat) (v : Word) :
    (c.setF f k v).iv = c.iv := by cases f <;> rfl
@[simp] theorem Context.setF_T (c : Context) (f : WindowName) (k : Nat) (v : Word) (a : Nat) :
    (c.setF f k v).T a = c.T a := by cases f <;> rfl
@[simp] theorem Context.setF_window_same (c : Context) (f : WindowName) (k : Nat) (v : Word) :
    (c.setF f k v).window f = Window.write (c.window f) k v := by cases f <;> rfl
theorem Context.setF_window_other (c : Context) (f f' : WindowName) (k : Nat) (v : Word) (hf : f' ≠ f) :
    (c.setF f k v).window f' = c.window f' := by cases f <;> cases f' <;> first | rfl | exact absurd rfl hf

/-! ## advance -/

@[simp] theorem advance_table (c0 : BitVec 10) (c : Context) : (advance c0 c).table = c.table := rfl
@[simp] theorem advance_feedbackP (c0 : BitVec 10) (c : Context) : (advance c0 c).feedbackP = c.feedbackP := rfl
@[simp] theorem advance_feedbackQ (c0 : BitVec 10) (c : Context) : (advance c0 c).feedbackQ = c.feedbackQ := rfl
@[simp] theorem advance_counter (c0 : BitVec 10) (c : Context) : (advance c0 c).counter = c0 + 16 := rfl
@[simp] theorem advance_key (c0 : BitVec 10) (c : Context) : (advance c0 c).key = c.key := rfl
@[simp] theorem advance_keylen (c0 : BitVec 10) (c : Context) : (advance c0 c).keylen = c.keylen := rfl
@[simp] theorem advance_iv (c0 : BitVec 10) (c : Context) : (advance c0 c).iv = c.iv := rfl
@[simp] theorem advance_T (c0 : BitVec 10) (c : Context) (a : Nat) : (advance c0 c).T a = c.T a := rfl
@[simp] theorem advance_window (c0 : BitVec 10) (c : Context) (f : WindowName) :
    (advance c0 c).window f = c.window f := by cases f <;> rfl
@[simp] theorem advance_F (c0 : BitVec 10) (c : Context) (f : WindowName) (k : Nat) :
    (advance c0 c).F f k = c.F f k := by cases f <;> rfl

/-! ## the zeroed Context -/

@[simp] theorem Context.zeroed_T (a : Nat) : Context.zeroed.T a = 0 := rfl
@[simp] theorem Context.zeroed_counter : Context.zeroed.counter = 0 := rfl

end Sys2Proof.Machine
end

