-- ==== Sys2Proof/Laws/Calls.lean ====
section
/-! SUPPORT. Everything one Updater/Generator call does: `upd16_spec` and `gen16_spec`, which later proofs cite in place
of unfolding the sub-steps. -/

namespace Sys2Proof.Machine

theorem Context.T_setT (c : Context) (a b : Nat) (v : Word) : (c.setT a v).T b = if b = a then v else c.T b :=
  Memory.read_write c.table a b v

theorem Context.F_setF_same (c : Context) (f : WindowName) (k j : Nat) (v : Word) :
    (c.setF f k v).F f j = if j % 16 = k % 16 then v else c.F f j := by
  simp only [Context.F, Context.setF_window_same, Window.read_write]

theorem Context.F_mod (c : Context) (f : WindowName) (k : Nat) : c.F f (k % 16) = c.F f k := by
  simp [Context.F, Window.read]

/-! ## store -/

theorem store_T (sd : Side) (c : Context) (k : Nat) (v : Word) (a : Nat) :
    (store sd c k v).T a = if a = slot sd k then v else c.T a := by
  simp [store, Context.T_setT]

theorem store_F (sd : Side) (c : Context) (k : Nat) (v : Word) (j : Nat) :
    (store sd c k v).F sd.F j = if j % 16 = k % 16 then v else c.F sd.F j := by
  simp [store, Context.F_setF_same]

theorem store_window_other (sd : Side) (c : Context) (k : Nat) (v : Word) {f : WindowName} (hf : f ≠ sd.F) :
    (store sd c k v).window f = c.window f := by
  simp [store, Context.setF_window_other _ _ _ _ _ hf]

@[simp] theorem store_counter (sd : Side) (c : Context) (k : Nat) (v : Word) :
    (store sd c k v).counter = c.counter := by simp [store]
@[simp] theorem store_key (sd : Side) (c : Context) (k : Nat) (v : Word) : (store sd c k v).key = c.key := by
  simp [store]
@[simp] theorem store_keylen (sd : Side) (c : Context) (k : Nat) (v : Word) :
    (store sd c k v).keylen = c.keylen := by simp [store]
@[simp] theorem store_iv (sd : Side) (c : Context) (k : Nat) (v : Word) : (store sd c k v).iv = c.iv := by
  simp [store]
@[simp] theorem store_table (sd : Side) (c : Context) (k : Nat) (v : Word) :
    (store sd c k v).table = Memory.write c.table (slot sd k) v := by simp [store]

/-! ## The first n sub-steps -/

/-- What `n` sub-steps on side `sd` have changed between `c` and `t`, whatever words they stored. -/
structure Progress (sd : Side) (c t : Context) (n : Nat) : Prop where
  table : ∀ a, (∀ k < n, a ≠ slot sd k) → t.T a = c.T a
  done : ∀ k < n, t.F sd.F k = t.T (slot sd k)
  toDo : ∀ k, n ≤ k → k < 16 → t.F sd.F k = c.F sd.F k
  inactive : ∀ f, f ≠ sd.F → t.window f = c.window f
  counter : t.counter = c.counter
  key : t.key = c.key
  keylen : t.keylen = c.keylen
  iv : t.iv = c.iv

theorem Progress.start (sd : Side) (c : Context) : Progress sd c c 0 :=
  ⟨fun _ _ => rfl, fun _ hk => absurd hk (by omega), fun _ _ _ => rfl, fun _ _ => rfl, rfl, rfl, rfl, rfl⟩

theorem Progress.store {sd : Side} {c t : Context} {n : Nat} (hp : Progress sd c t n) (hn : n < 16) (v : Word) :
    Progress sd c (store sd t n v) (n + 1) where
  table a ha := by
    rw [store_T, if_neg (ha n (by omega))]
    exact hp.table a fun k hk => ha k (by omega)
  done k hk := by
    rw [store_F, store_T, Nat.mod_eq_of_lt (show k < 16 by omega), Nat.mod_eq_of_lt hn]
    by_cases hkn : k = n
    · simp [hkn]
    · rw [if_neg hkn, if_neg (slot_ne (by omega) hn hkn)]
      exact hp.done k (by omega)
  toDo k hk hk' := by
    rw [store_F, Nat.mod_eq_of_lt hk', Nat.mod_eq_of_lt hn, if_neg (by omega)]
    exact hp.toDo k (by omega) hk'
  inactive f hf := by rw [store_window_other sd t n v hf, hp.inactive f hf]
  counter := by simp [hp.counter]
  key := by simp [hp.key]
  keylen := by simp [hp.keylen]
  iv := by simp [hp.iv]

/-- The window operand at offset `o` of sub-step `n` is what `seen` says. -/
theorem Progress.read_window {sd : Side} {c t : Context} {n : Nat} (hp : Progress sd c t n) (hn : n < 16) {o : Nat}
    (ho : o < 16) : t.F sd.F ((n + o) % 16) = seen c t sd.F n o := by
  unfold seen
  split
  · next h => rw [Nat.mod_eq_of_lt h]; exact hp.toDo _ (by omega) h
  · next h => rw [show (n + o) % 16 = n + o - 16 by omega]

theorem seen_congr {c d d' : Context} {f : WindowName} {k o : Nat} (ho : o < 16)
    (hd : ∀ j < k, d.F f j = d'.F f j) : seen c d f k o = seen c d' f k o := by
  unfold seen
  split
  · rfl
  · exact hd _ (by omega)

theorem sumAt_congr {c d d' : Context} {k : Nat} (hd : ∀ j < k, d.F (sideOf c.counter).F j = d'.F (sideOf c.counter).F j) :
    sumAt c d k = sumAt c d' k := by
  simp only [sumAt, seen_congr (o := 13) (by decide) hd, seen_congr (o := 6) (by decide) hd]

theorem hAt_congr {c d d' : Context} {k : Nat} (hd : ∀ j < k, d.F (sideOf c.counter).F j = d'.F (sideOf c.counter).F j) :
    hAt c d k = hAt c d' k := by
  simp only [hAt, seen_congr (o := 4) (by decide) hd]

/-- R115: the sum a sub-step computes, in terms of the Context at the start of the call. -/
theorem Progress.gSum_eq {c t : Context} {n : Nat} (hp : Progress (sideOf c.counter) c t n) (hn : n < 16) :
    gSum (sideOf c.counter) t n = sumAt c t n := by
  have hslot : t.T (slot (sideOf c.counter) n) = c.T (slot (sideOf c.counter) n) :=
    hp.table _ fun k hk => slot_ne hn (by omega) (by omega)
  have hnxt : t.T (nxt (sideOf c.counter) n) = c.T (nxt (sideOf c.counter) n) :=
    hp.table _ fun k hk => nxt_ne_slot hn (by omega)
  simp only [gSum, sumAt, xIndex, yIndex, hslot, hnxt, hp.read_window hn (o := 13) (by decide),
    hp.read_window hn (o := 6) (by decide)]

/-- R116: h at a sub-step, in terms of the Context at the start of the call. -/
theorem Progress.hTerm_eq {c t : Context} {n : Nat} (hp : Progress (sideOf c.counter) c t n) (hn : n < 16) :
    hTerm (sideOf c.counter) t n = hAt c t n := by
  have hlo : ∀ w, t.T (hAddrLo (sideOf c.counter) w) = c.T (hAddrLo (sideOf c.counter) w) :=
    fun w => hp.table _ fun k _ => hAddrLo_ne_slot c.counter w k
  have hhi : ∀ w, t.T (hAddrHi (sideOf c.counter) w) = c.T (hAddrHi (sideOf c.counter) w) :=
    fun w => hp.table _ fun k _ => hAddrHi_ne_slot c.counter w k
  simp only [hTerm, h, hAt, wIndex, hlo, hhi, hp.read_window hn (o := 4) (by decide)]

theorem store_F_before (sd : Side) (t : Context) {n : Nat} (hn : n < 16) (v : Word) :
    ∀ j < n, (store sd t n v).F sd.F j = t.F sd.F j := fun j hj => by
  rw [store_F, Nat.mod_eq_of_lt (show j < 16 by omega), Nat.mod_eq_of_lt hn, if_neg (by omega)]

theorem CallFrame.of_progress {c t : Context} (hp : Progress (sideOf c.counter) c t 16) :
    CallFrame c (advance c.counter t) where
  table a ha := hp.table a ha
  active k hk := by simpa using hp.done k hk
  inactive f hf := by simpa using hp.inactive f hf
  counter := by simp [BitVec.toNat_add]
  key := hp.key
  keylen := hp.keylen
  iv := hp.iv

/-- Everything UPD16 does (R119). -/
theorem upd16_spec (c : Context) : UpdCall c (upd16 c) := by
  have key : Progress (sideOf c.counter) c (forUp (updSubstep (sideOf c.counter)) 0 16 c) 16 ∧
      ∀ k < 16, (forUp (updSubstep (sideOf c.counter)) 0 16 c).T (slot (sideOf c.counter) k) =
        sumAt c (forUp (updSubstep (sideOf c.counter)) 0 16 c) k ^^^
          hAt c (forUp (updSubstep (sideOf c.counter)) 0 16 c) k := by
    refine forUp_induct (fun n t => Progress (sideOf c.counter) c t n ∧
      ∀ k < n, t.T (slot (sideOf c.counter) k) = sumAt c t k ^^^ hAt c t k)
      ⟨Progress.start _ c, fun _ hk => absurd hk (by omega)⟩ fun n hn t ht => ?_
    obtain ⟨hp, hw⟩ := ht
    rw [Nat.zero_add]
    refine ⟨hp.store hn _, fun k hk => ?_⟩
    have hbefore : ∀ j < k, t.F (sideOf c.counter).F j = (updSubstep (sideOf c.counter) n t).F (sideOf c.counter).F j :=
      fun j hj => (store_F_before _ t hn _ j (by omega)).symm
    rw [← sumAt_congr hbefore, ← hAt_congr hbefore, updSubstep, store_T]
    by_cases hkn : k = n
    · subst hkn
      rw [if_pos rfl, hp.gSum_eq hn, hp.hTerm_eq hn]
    · rw [if_neg (slot_ne (by omega) hn hkn)]
      exact hw k (by omega)
  refine ⟨CallFrame.of_progress key.1, fun k hk => ?_⟩
  have hadv : ∀ j < k, (forUp (updSubstep (sideOf c.counter)) 0 16 c).F (sideOf c.counter).F j =
      (upd16 c).F (sideOf c.counter).F j := fun j _ => by simp [upd16]
  rw [← sumAt_congr hadv, ← hAt_congr hadv]
  exact key.2 k hk

theorem gen16Words_spec (c : Context) :
    Progress (sideOf c.counter) c (gen16Words c).1 16 ∧
    (∀ k < 16, (gen16Words c).1.T (slot (sideOf c.counter) k) = sumAt c (gen16Words c).1 k) ∧
    (gen16Words c).2 = (List.range 16).map fun k =>
      hAt c (gen16Words c).1 k ^^^ (gen16Words c).1.T (slot (sideOf c.counter) k) := by
  refine forUp_induct (fun n (t : Context × List Word) => Progress (sideOf c.counter) c t.1 n ∧
    (∀ k < n, t.1.T (slot (sideOf c.counter) k) = sumAt c t.1 k) ∧
    t.2 = (List.range n).map fun k => hAt c t.1 k ^^^ t.1.T (slot (sideOf c.counter) k))
    ⟨Progress.start _ c, fun _ hk => absurd hk (by omega), rfl⟩ fun n hn t ht => ?_
  obtain ⟨hp, hw, hout⟩ := ht
  rw [Nat.zero_add]
  have hbefore : ∀ k ≤ n, ∀ j < k, t.1.F (sideOf c.counter).F j =
      (genSubstep (sideOf c.counter) n t).1.F (sideOf c.counter).F j :=
    fun k hk j hj => (store_F_before _ t.1 hn _ j (by omega)).symm
  have hT : ∀ k < n, (genSubstep (sideOf c.counter) n t).1.T (slot (sideOf c.counter) k) =
      t.1.T (slot (sideOf c.counter) k) := fun k hk => by
    rw [genSubstep, store_T, if_neg (slot_ne (by omega) hn (by omega))]
  have hTn : (genSubstep (sideOf c.counter) n t).1.T (slot (sideOf c.counter) n) = sumAt c t.1 n := by
    rw [genSubstep, store_T, if_pos rfl, hp.gSum_eq hn]
  refine ⟨hp.store hn _, fun k hk => ?_, ?_⟩
  · rw [← sumAt_congr (hbefore k (by omega))]
    by_cases hkn : k = n
    · rw [hkn, hTn]
    · rw [hT k (by omega)]
      exact hw k (by omega)
  · have hemit : (genSubstep (sideOf c.counter) n t).2 = t.2 ++ [hAt c t.1 n ^^^ sumAt c t.1 n] := by
      rw [genSubstep, hp.gSum_eq hn, hp.hTerm_eq hn]
    rw [hemit, hout, List.range_succ, List.map_append, List.map_singleton, ← hAt_congr (hbefore n (le_refl n)), hTn]
    refine congrArg (· ++ _) (List.map_congr_left fun k hk => ?_)
    rw [← hAt_congr (hbefore k (List.mem_range.1 hk).le), hT k (List.mem_range.1 hk)]

theorem gen16_fst (c : Context) : (gen16 c).1 = advance c.counter (gen16Words c).1 := by rw [gen16]

theorem gen16_snd (c : Context) : (gen16 c).2 = (gen16Words c).2.flatMap bytesLe := by rw [gen16]

/-- Everything GEN16 does (R121). -/
theorem gen16_spec (c : Context) : GenCall c (gen16 c).1 (gen16 c).2 := by
  obtain ⟨hp, hw, hout⟩ := gen16Words_spec c
  have hadv : ∀ k, ∀ j < k, (gen16Words c).1.F (sideOf c.counter).F j = (gen16 c).1.F (sideOf c.counter).F j :=
    fun k j _ => by rw [gen16_fst, advance_F]
  refine ⟨gen16_fst c ▸ CallFrame.of_progress hp, fun k hk => ?_, ?_⟩
  · rw [← sumAt_congr (hadv k), gen16_fst, advance_T]
    exact hw k hk
  · rw [gen16_snd, hout, List.flatMap_map]
    refine List.flatMap_congr fun k _ => ?_
    rw [← hAt_congr (hadv k), gen16_fst, advance_T]

theorem flatMap_bytesLe_length (f : Nat → Word) (n : Nat) :
    ((List.range n).flatMap fun k => bytesLe (f k)).length = 4 * n := by
  simp [List.length_flatMap, Nat.mul_comm]

/-- R121: the block is 64 bytes. -/
@[simp] theorem gen16_length (c : Context) : (gen16 c).2.length = 64 := by
  rw [(gen16_spec c).block, flatMap_bytesLe_length]

/-! ## The canonical form is kept -/

theorem store_wf {c0 : BitVec 10} {c : Context} (hc : Memory.wf c.table) (k : Nat) (v : Word) :
    Memory.wf (store (sideOf c0) c k v).table := by
  rw [store_table]
  exact Memory.wf_write hc (slot_lt c0 k) v

theorem upd16_wf {c : Context} (hc : Memory.wf c.table) : Memory.wf (upd16 c).table :=
  forUp_keeps (fun t : Context => Memory.wf t.table) hc fun _ _ _ _ ht => store_wf ht _ _

theorem gen16_wf {c : Context} (hc : Memory.wf c.table) : Memory.wf (gen16 c).1.table :=
  forUp_keeps (fun t : Context × List Word => Memory.wf t.1.table) hc fun _ _ _ _ ht => store_wf ht _ _

end Sys2Proof.Machine
end

