-- ==== Sys2Proof/Laws/Driver.lean ====
section
/-! SUPPORT. The Cipher Driver's equations (43_cipher_driver.md R130 to R134). -/

namespace Sys2Proof.Machine

@[simp] theorem xorBytes_nil (ks : List Byte) : xorBytes [] ks = [] := rfl

theorem xorBytes_length (data ks : List Byte) : (xorBytes data ks).length = min data.length ks.length := by
  simp [xorBytes]

/-- R131, R133: keystream bytes beyond the data do not matter, and each data byte is xored with its own. -/
theorem xorBytes_getElem (data ks : List Byte) (i : Nat) (hd : i < data.length) (hk : i < ks.length) :
    (xorBytes data ks)[i]'(by rw [xorBytes_length]; omega) = data[i] ^^^ ks[i] := by
  simp [xorBytes]

theorem transform_of_lt {data : List Byte} (hd : data.length < 64) (c : Context) :
    transform data c = transformTail data c := by
  rw [transform, Nat.div_eq_of_lt hd, transformBlocks]

theorem transform_of_ge {data : List Byte} (hd : 64 ≤ data.length) (c : Context) :
    transform data c =
      ((transform (data.drop 64) (gen16 c).1).1,
        xorBytes (data.take 64) (gen16 c).2 ++ (transform (data.drop 64) (gen16 c).1).2) := by
  obtain ⟨n, hn⟩ : ∃ n, data.length / 64 = n + 1 := ⟨data.length / 64 - 1, by omega⟩
  have hn' : (data.drop 64).length / 64 = n := by rw [List.length_drop]; omega
  rw [transform, hn, transformBlocks, transform, hn']

/-- R131: "output of identical length". -/
theorem transform_length (data : List Byte) (c : Context) : (transform data c).2.length = data.length := by
  induction hn : data.length / 64 generalizing data c with
  | zero =>
    rw [transform_of_lt (by omega)]
    cases data with
    | nil => rfl
    | cons b data =>
      have hlt : (b :: data).length < 64 := by omega
      simp only [transformTail, xorBytes_length, gen16_length]
      omega
  | succ n ih =>
    rw [transform_of_ge (by omega)]
    simp only [List.length_append, xorBytes_length, gen16_length,
      ih (data.drop 64) (gen16 c).1 (by rw [List.length_drop]; omega), List.length_take, List.length_drop]
    omega

/-- What one generate call keeps, XFORM keeps: its whole effect on the Context is its GEN16 calls. -/
theorem transform_keeps (P : Context → Prop) (hcall : ∀ c, P c → P (gen16 c).1) (data : List Byte) {c : Context}
    (hc : P c) : P (transform data c).1 := by
  induction hn : data.length / 64 generalizing data c with
  | zero =>
    rw [transform_of_lt (by omega)]
    cases data with
    | nil => exact hc
    | cons b data => exact hcall c hc
  | succ n ih =>
    rw [transform_of_ge (by omega)]
    exact ih (data.drop 64) (hcall c hc) (by rw [List.length_drop]; omega)

/-- R134: no data, no generation. -/
theorem transform_nil (c : Context) : transform [] c = (c, []) := rfl

end Sys2Proof.Machine
end

