-- ==== Sys2Proof/Laws/Initializer.lean ====
section
/-! SUPPORT. What SETUP's steps keep: each step's effect is its writes, so that an invariant of the Context is checked
against the writes and the update calls only (41_table_initializer.md R91). -/

namespace Sys2Proof.Machine

/-- Step 1 is writes to T[0..15]. -/
theorem packKeyAndIv_keeps (P : Context → Prop) (hwrite : ∀ a < 1024, ∀ v c, P c → P (c.setT a v)) {c : Context}
    (hc : P c) : P (packKeyAndIv c) :=
  forUp_keeps P (forUp_keeps P hc fun i _ hi t ht => hwrite i (by omega) _ t ht)
    fun i _ hi t ht => hwrite (8 + i) (by omega) _ t ht

/-- Step 2 is writes to T[16..271]. -/
theorem firstExpansion_keeps (P : Context → Prop) (hwrite : ∀ a < 1024, ∀ v c, P c → P (c.setT a v)) {c : Context}
    (hc : P c) : P (firstExpansion c) :=
  forUp_keeps P hc fun i _ hi t ht => hwrite i (by omega) _ t ht

/-- Step 3 is writes to T[0..15]. -/
theorem whiten_keeps (P : Context → Prop) (hwrite : ∀ a < 1024, ∀ v c, P c → P (c.setT a v)) {c : Context}
    (hc : P c) : P (whiten c) :=
  forUp_keeps P hc fun i _ hi t ht => hwrite i (by omega) _ t ht

/-- Step 4 is writes to T[16..1023]. -/
theorem secondExpansion_keeps (P : Context → Prop) (hwrite : ∀ a < 1024, ∀ v c, P c → P (c.setT a v)) {c : Context}
    (hc : P c) : P (secondExpansion c) :=
  forUp_keeps P hc fun i _ hi t ht => hwrite i (by omega) _ t ht

/-- Everything the expansion loop of steps 2 and 4 does, for `N` indices from 16 on (R96, R98): it leaves all but the
table alone, the words it writes satisfy the recurrence over the table it leaves, and it writes no other word. -/
theorem forUp_expandAt (off N : Nat) (c : Context) :
    { forUp (expandAt off) 16 N c with table := c.table } = c ∧
    (∀ i, 16 ≤ i → i < 16 + N →
      (forUp (expandAt off) 16 N c).T i =
        f2 ((forUp (expandAt off) 16 N c).T (i - 2)) + (forUp (expandAt off) 16 N c).T (i - 7) +
          f1 ((forUp (expandAt off) 16 N c).T (i - 15)) + (forUp (expandAt off) 16 N c).T (i - 16) +
          BitVec.ofNat 32 (off + i)) ∧
    ∀ a, a < 16 ∨ 16 + N ≤ a → (forUp (expandAt off) 16 N c).T a = c.T a := by
  refine forUp_induct (fun n (t : Context) => { t with table := c.table } = c ∧
    (∀ i, 16 ≤ i → i < 16 + n →
      t.T i = f2 (t.T (i - 2)) + t.T (i - 7) + f1 (t.T (i - 15)) + t.T (i - 16) + BitVec.ofNat 32 (off + i)) ∧
    ∀ a, a < 16 ∨ 16 + n ≤ a → t.T a = c.T a)
    ⟨rfl, fun i h1 h2 => by omega, fun _ _ => rfl⟩
    fun n _ t ⟨ht, hr, hf⟩ => ⟨ht, fun i h1 h2 => ?_, fun a ha => ?_⟩
  · simp only [expandAt, Context.T_setT]
    by_cases hi : i = 16 + n
    · subst hi
      rw [if_pos rfl, if_neg (by omega), if_neg (by omega), if_neg (by omega), if_neg (by omega)]
      rfl
    · rw [if_neg hi, if_neg (by omega), if_neg (by omega), if_neg (by omega), if_neg (by omega)]
      exact hr i h1 (by omega)
  · rw [expandAt, Context.T_setT, if_neg (by omega)]
    exact hf a (by omega)

/-- Step 5 leaves the table alone. -/
@[simp] theorem seedWindows_table (c : Context) : (seedWindows c).table = c.table :=
  forUp_keeps (fun t : Context => t.table = c.table) rfl fun i _ _ t ht => by simpa using ht

/-- Step 6 is update calls. -/
theorem warmUp_keeps (P : Context → Prop) (hcall : ∀ c, P c → P (upd16 c)) {c : Context}
    (hc : P { c with counter := 0 }) : P (warmUp c) :=
  forUp_keeps P hc fun _ _ _ t ht => hcall t ht

/-- SETUP keeps the table in canonical form. -/
theorem initializeTable_wf {c : Context} (hc : Memory.wf c.table) : Memory.wf (initializeTable c).table := by
  have hwrite : ∀ a < 1024, ∀ v (c : Context), Memory.wf c.table → Memory.wf (c.setT a v).table :=
    fun a ha v c hc => Memory.wf_write hc ha v
  refine warmUp_keeps (fun t => Memory.wf t.table) (fun t ht => upd16_wf ht) ?_
  rw [seedWindows_table]
  exact secondExpansion_keeps (fun t => Memory.wf t.table) hwrite
    (whiten_keeps (fun t => Memory.wf t.table) hwrite
      (firstExpansion_keeps (fun t => Memory.wf t.table) hwrite
        (packKeyAndIv_keeps (fun t => Memory.wf t.table) hwrite hc)))

end Sys2Proof.Machine
end

