-- ==== Sys2Proof/Laws/Copies.lean ====
section
/-! SUPPORT. Contexts that agree but for the copies of key and iv (10_state.md R26, R27): every operation of the
keystream computes the same from both. -/

namespace Sys2Proof.Machine

/-- The two Contexts hold the same table, windows and counter. -/
structure Like (c d : Context) : Prop where
  table : c.table = d.table
  feedbackP : c.feedbackP = d.feedbackP
  feedbackQ : c.feedbackQ = d.feedbackQ
  counter : c.counter = d.counter

theorem Like.T {c d : Context} (hl : Like c d) (a : Nat) : c.T a = d.T a := by simp [Context.T, hl.table]

theorem Like.F {c d : Context} (hl : Like c d) (f : WindowName) (k : Nat) : c.F f k = d.F f k := by
  cases f <;> simp [Context.F, Context.window, hl.feedbackP, hl.feedbackQ]

theorem Like.setT {c d : Context} (hl : Like c d) (a : Nat) (v : Word) : Like (c.setT a v) (d.setT a v) :=
  ⟨by simp [hl.table], hl.feedbackP, hl.feedbackQ, hl.counter⟩

theorem Like.setF {c d : Context} (hl : Like c d) (f : WindowName) (k : Nat) (v : Word) :
    Like (c.setF f k v) (d.setF f k v) := by
  obtain ⟨ht, hp, hq, hn⟩ := hl
  cases f <;> constructor <;> simp [Context.setF, ht, hp, hq, hn]

theorem Like.store {c d : Context} (hl : Like c d) (sd : Side) (k : Nat) (v : Word) :
    Like (store sd c k v) (store sd d k v) := (hl.setT _ _).setF _ _ _

theorem Like.gSum {c d : Context} (hl : Like c d) (sd : Side) (k : Nat) : gSum sd c k = gSum sd d k := by
  simp [Machine.gSum, hl.T, hl.F]

theorem Like.hTerm {c d : Context} (hl : Like c d) (sd : Side) (k : Nat) : hTerm sd c k = hTerm sd d k := by
  simp [Machine.hTerm, h, hl.T, hl.F]

theorem Like.advance {c d : Context} (hl : Like c d) (n : BitVec 10) : Like (advance n c) (advance n d) :=
  ⟨hl.table, hl.feedbackP, hl.feedbackQ, rfl⟩

theorem Like.upd16 {c d : Context} (hl : Like c d) : Like (upd16 c) (upd16 d) := by
  rw [Machine.upd16, Machine.upd16, hl.counter]
  refine (forUp_rel Like hl fun i s t _ _ hst => ?_).advance _
  rw [updSubstep, updSubstep, hst.gSum, hst.hTerm]
  exact hst.store _ _ _

theorem Like.gen16Words {c d : Context} (hl : Like c d) :
    Like (gen16Words c).1 (gen16Words d).1 ∧ (gen16Words c).2 = (gen16Words d).2 := by
  rw [Machine.gen16Words, Machine.gen16Words, hl.counter]
  refine forUp_rel (fun (s t : Context × List Word) => Like s.1 t.1 ∧ s.2 = t.2) ⟨hl, rfl⟩ fun i s t _ _ hst => ?_
  rw [genSubstep, genSubstep, hst.1.gSum, hst.1.hTerm, hst.2]
  exact ⟨hst.1.store _ _ _, rfl⟩

theorem Like.gen16 {c d : Context} (hl : Like c d) : Like (gen16 c).1 (gen16 d).1 ∧ (gen16 c).2 = (gen16 d).2 := by
  rw [gen16_fst, gen16_fst, gen16_snd, gen16_snd, hl.gen16Words.2, hl.counter]
  exact ⟨hl.gen16Words.1.advance _, rfl⟩

theorem Like.transform (data : List Byte) {c d : Context} (hl : Like c d) :
    Like (transform data c).1 (transform data d).1 ∧ (transform data c).2 = (transform data d).2 := by
  induction hn : data.length / 64 generalizing data c d with
  | zero =>
    rw [transform_of_lt (by omega), transform_of_lt (by omega)]
    cases data with
    | nil => exact ⟨hl, rfl⟩
    | cons b data =>
      simp only [transformTail, hl.gen16.2]
      exact ⟨hl.gen16.1, trivial⟩
  | succ n ih =>
    have hrest := ih (data.drop 64) hl.gen16.1 (by rw [List.length_drop]; omega)
    rw [transform_of_ge (by omega) c, transform_of_ge (by omega) d]
    dsimp only
    rw [hl.gen16.2, hrest.2]
    exact ⟨hrest.1, rfl⟩

theorem Like.warmUp {c d : Context} (hl : Like c d) : Like (warmUp c) (warmUp d) :=
  forUp_rel Like (s := { c with counter := 0 }) (t := { d with counter := 0 })
    ⟨hl.table, hl.feedbackP, hl.feedbackQ, rfl⟩ fun _ _ _ _ _ hst => hst.upd16

end Sys2Proof.Machine
end

