-- ==== Sys2Proof/Laws/Exceptions.lean ====
section
/-! SUPPORT. Everything `raise` does (60_exceptions.md R141 to R143). -/

namespace Sys2Proof.Machine

theorem raise_invalidKeyLength (s : State) :
    raise .InvalidKeyLength s =
      .next { ctx := Context.anyValue s.freeDraws, phase := .Undefined, commandPort := s.commandPort,
              responsePort := s.responsePort ++ [0x01], freeDraws := s.freeDraws + 1 } := rfl

theorem raise_notUsable (s : State) :
    raise .NotUsable s = .refused (.notUsable { s with responsePort := s.responsePort ++ [0x02] }) := rfl

theorem raise_illegalCommand (s : State) :
    raise .IllegalCommand s = .fault (.illegalCommand { s with responsePort := s.responsePort ++ [0xFF] }) := rfl

/-- R156: the one exception that is a next state. -/
theorem raise_next {e : ExceptionName} {s t : State} (hr : raise e s = .next t) :
    e = .InvalidKeyLength ∧ t.ctx = Context.anyValue s.freeDraws ∧ t.phase = .Undefined ∧
      t.commandPort = s.commandPort ∧ t.responsePort = s.responsePort ++ [0x01] ∧
      t.freeDraws = s.freeDraws + 1 := by
  cases e with
  | InvalidKeyLength =>
    rw [raise_invalidKeyLength] at hr
    cases hr
    exact ⟨rfl, rfl, rfl, rfl, rfl, rfl⟩
  | NotUsable => cases hr
  | IllegalCommand => cases hr

/-- R141, R142, R143: whatever its class, an exception answers with its one status byte. -/
theorem raise_answers (e : ExceptionName) (s : State) :
    (stateAfter s (raise e s)).responsePort = s.responsePort ++ [e.code] := by
  cases e <;> rfl

end Sys2Proof.Machine
end

