-- ==== Sys2Proof/Laws/Mirror.lean ====
section
/-! SUPPORT. The fields of a mirrored side (42_updater_generator.md R124). -/

namespace Sys2Proof.Machine

@[simp] theorem Side.mirror_cc (sd : Side) : sd.mirror.cc = sd.cc := by unfold Side.mirror; with_reducible rfl
@[simp] theorem Side.mirror_F (sd : Side) : sd.mirror.F = sd.F.other := by unfold Side.mirror; with_reducible rfl
@[simp] theorem Side.mirror_dir (sd : Side) : sd.mirror.dir = sd.dir := by unfold Side.mirror; with_reducible rfl
@[simp] theorem Side.mirror_B (sd : Side) : sd.mirror.B = (sd.B + 512) % 1024 := by
  unfold Side.mirror; with_reducible rfl
@[simp] theorem Side.mirror_Bh (sd : Side) : sd.mirror.Bh = (sd.Bh + 512) % 1024 := by
  unfold Side.mirror; with_reducible rfl

@[simp] theorem g_mirror (sd : Side) (x y z : Word) : g sd.mirror x y z = g sd x y z := by simp [g]

end Sys2Proof.Machine
end

