-- ==== Sys2Proof/Laws/Packets.lean ====
section
/-! SUPPORT. The decoder's equations, one for each opcode (30_encoding.md R66, R68). -/

namespace Sys2Proof

open Machine (le32 bytesLe)

@[simp] theorem decode_nil : decode [] = .error .empty := rfl
@[simp] theorem decode_clear (rest : List Byte) : decode (0x01 :: rest) = .ok (.clear, rest) := rfl
@[simp] theorem decode_setup (rest : List Byte) : decode (0x02 :: rest) = decodeK rest := rfl
@[simp] theorem decode_gen (rest : List Byte) : decode (0x03 :: rest) = .ok (.gen, rest) := rfl
@[simp] theorem decode_xform (rest : List Byte) : decode (0x04 :: rest) = decodeD rest := rfl
@[simp] theorem decode_release (rest : List Byte) : decode (0x05 :: rest) = .ok (.release, rest) := rfl

/-- R68: the dispatch on byte 0. -/
theorem decode_cons (b0 : Byte) (rest : List Byte) :
    decode (b0 :: rest) =
      if b0 = 0x01 then .ok (.clear, rest)
      else if b0 = 0x02 then decodeK rest
      else if b0 = 0x03 then .ok (.gen, rest)
      else if b0 = 0x04 then decodeD rest
      else if b0 = 0x05 then .ok (.release, rest)
      else .error .illegalCommand := rfl

theorem decodeK_cons (b1 : Byte) (rest : List Byte) :
    decodeK (b1 :: rest) =
      if rest.length < b1.toNat + 16 then .error .incomplete
      else .ok (.setup (rest.take b1.toNat) (ivOfBytes (rest.drop b1.toNat)), rest.drop (b1.toNat + 16)) := rfl

theorem decodeD_cons (b1 b2 b3 b4 : Byte) (rest : List Byte) :
    decodeD (b1 :: b2 :: b3 :: b4 :: rest) =
      if rest.length < (le32 b1 b2 b3 b4).toNat then .error .incomplete
      else .ok (.xform (rest.take (le32 b1 b2 b3 b4).toNat), rest.drop (le32 b1 b2 b3 b4).toNat) := rfl

/-- The 16 bytes of the iv field are the vector they came from. -/
theorem ivOfBytes_toList (v : Vector Byte 16) (rest : List Byte) : ivOfBytes (v.toList ++ rest) = v := by
  refine Vector.ext fun i hi => ?_
  simp [ivOfBytes, List.getD_eq_getElem?_getD, List.getElem?_append]

/-- The vector read from 16 bytes has exactly those bytes. -/
theorem toList_ivOfBytes {bs : List Byte} (hb : 16 ≤ bs.length) : (ivOfBytes bs).toList = bs.take 16 := by
  refine List.ext_getElem (by simp; omega) fun i h1 h2 => ?_
  have hi : i < bs.length := by
    have := h2
    simp at this
    omega
  simp [ivOfBytes, List.getD_eq_getElem?_getD, hi]

end Sys2Proof
end

