-- ==== Sys2Proof/Laws/PerInstr.lean ====
section
/-! SUPPORT. Statements about every command as syntax, one lemma for each constructor.

PacketLength (30_encoding.md R66, R70): the length that a packet's leading bytes announce is the length it has. -/

namespace Sys2Proof.Laws.PacketLength

/-- The packet of a well-formed command has the length computed from its own leading bytes. -/
def Statement (i : Instr) : Prop := i.wf = true → packetLength (encode i) = (encode i).length

theorem clear : Statement .clear := fun _ => rfl

theorem setup (key : List Byte) (iv : Vector Byte 16) : Statement (.setup key iv) := by
  intro hw
  have hlen : key.length < 256 := by simpa [Instr.wf] using hw
  simp only [encode, packetLength, List.getD_cons_zero, List.getD_cons_succ, List.length_cons, List.length_append,
    Vector.length_toList, BitVec.toNat_ofNat, if_true]
  omega

theorem gen : Statement .gen := fun _ => rfl

theorem xform (data : List Byte) : Statement (.xform data) := by
  intro hw
  have hlen : data.length < 2 ^ 32 := by simpa [Instr.wf] using hw
  have hop : ¬ ((0x04 : Byte) = 0x02) := by decide
  simp only [encode, packetLength, Machine.bytesLe, List.cons_append, List.nil_append, List.getD_cons_zero,
    List.getD_cons_succ, Machine.le32_bytesLe, List.length_cons, BitVec.toNat_ofNat, if_neg hop, if_true]
  omega

theorem release : Statement .release := fun _ => rfl

end Sys2Proof.Laws.PacketLength
end

