-- ==== Sys2Proof/Laws/Step.lean ====
section
/-! SUPPORT. What a command and a step can do, said once: the inversion lemmas that invariants are derived from. -/

namespace Sys2Proof.Machine

/-! ## Phases and key lengths -/

theorem refusesCipher_eq_false {p : Phase} : p.refusesCipher = false ↔ p = .Zeroed ∨ p = .Ready := by
  cases p <;> decide

theorem refusesSetupAndRelease_eq_false {p : Phase} : p.refusesSetupAndRelease = false ↔ p ≠ .Released := by
  cases p <;> decide

theorem badKeyLength_eq_false {n : Nat} : badKeyLength n = false ↔ 1 ≤ n ∧ n ≤ 16 := by
  simp only [badKeyLength, Bool.or_eq_false_iff, beq_eq_false_iff_ne, decide_eq_false_iff_not]
  omega

/-! ## One command -/

theorem execSetup_ok {s : State} (hp : s.phase ≠ .Released) {k : List Byte} (hk : 1 ≤ k.length ∧ k.length ≤ 16)
    (v : Vector Byte 16) :
    execSetup k v s =
      .next ({ s with ctx := initializeTable (copyOperands k v s.ctx), phase := .Ready }.respond [0x00]) := by
  rw [execSetup, refusesSetupAndRelease_eq_false.2 hp, badKeyLength_eq_false.2 hk]
  rfl

theorem execSetup_badKeyLength {s : State} (hp : s.phase ≠ .Released) {k : List Byte}
    (hk : ¬ (1 ≤ k.length ∧ k.length ≤ 16)) (v : Vector Byte 16) :
    execSetup k v s = raise .InvalidKeyLength s := by
  have hbad : badKeyLength k.length = true := by
    rw [← Bool.not_eq_false, badKeyLength_eq_false]
    exact hk
  rw [execSetup, refusesSetupAndRelease_eq_false.2 hp, hbad]
  rfl

theorem execGen_ok {s : State} (hp : s.phase = .Zeroed ∨ s.phase = .Ready) :
    execGen s = .next ({ s with ctx := (gen16 s.ctx).1 }.respond (0x00 :: (gen16 s.ctx).2)) := by
  rw [execGen, refusesCipher_eq_false.2 hp]
  rfl

theorem execXform_ok {s : State} (hp : s.phase = .Zeroed ∨ s.phase = .Ready) (data : List Byte) :
    execXform data s =
      .next ({ s with ctx := (transform data s.ctx).1 }.respond (0x00 :: (transform data s.ctx).2)) := by
  rw [execXform, refusesCipher_eq_false.2 hp]
  rfl

theorem execRelease_ok {s : State} (hp : s.phase ≠ .Released) :
    execRelease s =
      .next ({ s with ctx := Context.anyValue s.freeDraws, phase := .Released,
                      freeDraws := s.freeDraws + 1 }.respond [0x00]) := by
  rw [execRelease, refusesSetupAndRelease_eq_false.2 hp]
  rfl

theorem execSetup_notUsable {s : State} (hp : s.phase = .Released) (k : List Byte) (v : Vector Byte 16) :
    execSetup k v s = raise .NotUsable s := by
  rw [execSetup, hp]
  rfl

theorem execRelease_notUsable {s : State} (hp : s.phase = .Released) : execRelease s = raise .NotUsable s := by
  rw [execRelease, hp]
  rfl

theorem refusesCipher_eq_true {p : Phase} (hp : ¬ (p = .Zeroed ∨ p = .Ready)) : p.refusesCipher = true := by
  rw [← Bool.not_eq_false, refusesCipher_eq_false]
  exact hp

theorem execGen_notUsable {s : State} (hp : ¬ (s.phase = .Zeroed ∨ s.phase = .Ready)) :
    execGen s = raise .NotUsable s := by
  rw [execGen, refusesCipher_eq_true hp]
  rfl

theorem execXform_notUsable {s : State} (hp : ¬ (s.phase = .Zeroed ∨ s.phase = .Ready)) (data : List Byte) :
    execXform data s = raise .NotUsable s := by
  rw [execXform, refusesCipher_eq_true hp]
  rfl

theorem notUsable_ne_next (s t : State) : raise .NotUsable s ≠ .next t := by simp [raise_notUsable]

/-! ## Each command's next state, by its fields

Cite these in place of unfolding `exec`: the Context stays an opaque term, which no unifier is tempted to evaluate. -/

theorem exec_setup (k : List Byte) (v : Vector Byte 16) (s : State) : exec (.setup k v) s = execSetup k v s := rfl
theorem exec_gen (s : State) : exec .gen s = execGen s := rfl
theorem exec_xform (data : List Byte) (s : State) : exec (.xform data) s = execXform data s := rfl
theorem exec_release (s : State) : exec .release s = execRelease s := rfl

/-- The fields of a command's next state, the Context being any term. -/
theorem next_fields {s : State} {o : Host.Outcome State Fault Refusal} {c : Context} {p : Phase} {d : Nat}
    {bs : List Byte} (ho : o = .next ({ s with ctx := c, phase := p, freeDraws := d }.respond bs)) :
    ∃ t, o = .next t ∧ t.ctx = c ∧ t.phase = p ∧ t.commandPort = s.commandPort ∧
      t.responsePort = s.responsePort ++ bs ∧ t.freeDraws = d :=
  ⟨_, ho, rfl, rfl, rfl, rfl, rfl⟩

theorem exec_setup_next {s : State} (hp : s.phase ≠ .Released) {k : List Byte} (hk : 1 ≤ k.length ∧ k.length ≤ 16)
    (v : Vector Byte 16) :
    ∃ t, exec (.setup k v) s = .next t ∧ t.ctx = initializeTable (copyOperands k v s.ctx) ∧ t.phase = .Ready ∧
      t.commandPort = s.commandPort ∧ t.responsePort = s.responsePort ++ [0x00] ∧ t.freeDraws = s.freeDraws :=
  next_fields (by rw [exec_setup, execSetup_ok hp hk v])

theorem exec_gen_next {s : State} (hp : s.phase = .Zeroed ∨ s.phase = .Ready) :
    ∃ t, exec .gen s = .next t ∧ t.ctx = (gen16 s.ctx).1 ∧ t.phase = s.phase ∧ t.commandPort = s.commandPort ∧
      t.responsePort = s.responsePort ++ 0x00 :: (gen16 s.ctx).2 ∧ t.freeDraws = s.freeDraws :=
  next_fields (by rw [exec_gen, execGen_ok hp])

theorem exec_xform_next {s : State} (hp : s.phase = .Zeroed ∨ s.phase = .Ready) (data : List Byte) :
    ∃ t, exec (.xform data) s = .next t ∧ t.ctx = (transform data s.ctx).1 ∧ t.phase = s.phase ∧
      t.commandPort = s.commandPort ∧ t.responsePort = s.responsePort ++ 0x00 :: (transform data s.ctx).2 ∧
      t.freeDraws = s.freeDraws :=
  next_fields (by rw [exec_xform, execXform_ok hp data])

theorem exec_release_next {s : State} (hp : s.phase ≠ .Released) :
    ∃ t, exec .release s = .next t ∧ t.ctx = Context.anyValue s.freeDraws ∧ t.phase = .Released ∧
      t.commandPort = s.commandPort ∧ t.responsePort = s.responsePort ++ [0x00] ∧
      t.freeDraws = s.freeDraws + 1 :=
  next_fields (by rw [exec_release, execRelease_ok hp])

/-- 60_exceptions.md R142: a command the phase accepts ends with a next state, any other is `NotUsable`. -/
theorem exec_outcome (i : Instr) (s : State) :
    (accepts s.phase i ∧ ∃ t, exec i s = .next t) ∨ (¬ accepts s.phase i ∧ exec i s = raise .NotUsable s) := by
  cases i with
  | clear => exact .inl ⟨trivial, _, rfl⟩
  | setup k v =>
    by_cases hp : s.phase = .Released
    · exact .inr ⟨not_not_intro hp, execSetup_notUsable hp k v⟩
    · by_cases hk : 1 ≤ k.length ∧ k.length ≤ 16
      · exact .inl ⟨hp, (exec_setup_next hp hk v).imp fun _ ht => ht.1⟩
      · exact .inl ⟨hp, _, execSetup_badKeyLength hp hk v⟩
  | gen =>
    by_cases hp : s.phase = .Zeroed ∨ s.phase = .Ready
    · exact .inl ⟨hp, (exec_gen_next hp).imp fun _ ht => ht.1⟩
    · exact .inr ⟨hp, execGen_notUsable hp⟩
  | xform data =>
    by_cases hp : s.phase = .Zeroed ∨ s.phase = .Ready
    · exact .inl ⟨hp, (exec_xform_next hp data).imp fun _ ht => ht.1⟩
    · exact .inr ⟨hp, execXform_notUsable hp data⟩
  | release =>
    by_cases hp : s.phase = .Released
    · exact .inr ⟨not_not_intro hp, execRelease_notUsable hp⟩
    · exact .inl ⟨hp, (exec_release_next hp).imp fun _ ht => ht.1⟩

/-- Every way a command ends with a next state. -/
inductive CommandEffect (s : State) : Instr → State → Prop where
  | clear : CommandEffect s .clear ({ s with ctx := Context.zeroed, phase := .Zeroed }.respond [0x00])
  | setup (k : List Byte) (v : Vector Byte 16) (hp : s.phase ≠ .Released) (hk : 1 ≤ k.length ∧ k.length ≤ 16) :
      CommandEffect s (.setup k v)
        ({ s with ctx := initializeTable (copyOperands k v s.ctx), phase := .Ready }.respond [0x00])
  | invalidKeyLength (k : List Byte) (v : Vector Byte 16) (hp : s.phase ≠ .Released)
      (hk : ¬ (1 ≤ k.length ∧ k.length ≤ 16)) :
      CommandEffect s (.setup k v)
        ({ s with ctx := Context.anyValue s.freeDraws, phase := .Undefined, freeDraws := s.freeDraws + 1 }.respond
          [0x01])
  | gen (hp : s.phase = .Zeroed ∨ s.phase = .Ready) :
      CommandEffect s .gen ({ s with ctx := (gen16 s.ctx).1 }.respond (0x00 :: (gen16 s.ctx).2))
  | xform (data : List Byte) (hp : s.phase = .Zeroed ∨ s.phase = .Ready) :
      CommandEffect s (.xform data)
        ({ s with ctx := (transform data s.ctx).1 }.respond (0x00 :: (transform data s.ctx).2))
  | release (hp : s.phase ≠ .Released) :
      CommandEffect s .release
        ({ s with ctx := Context.anyValue s.freeDraws, phase := .Released, freeDraws := s.freeDraws + 1 }.respond
          [0x00])

/-- The inversion lemma of `exec`. -/
theorem exec_next {i : Instr} {s t : State} (he : exec i s = .next t) : CommandEffect s i t := by
  cases i with
  | clear =>
    obtain rfl := Host.Outcome.next.inj he
    exact .clear
  | setup k v =>
    by_cases hp : s.phase = .Released
    · exact absurd ((execSetup_notUsable hp k v).symm.trans he) (notUsable_ne_next s t)
    · by_cases hk : 1 ≤ k.length ∧ k.length ≤ 16
      · obtain rfl := Host.Outcome.next.inj ((execSetup_ok hp hk v).symm.trans he)
        exact .setup k v hp hk
      · obtain rfl := Host.Outcome.next.inj
          (((execSetup_badKeyLength hp hk v).trans (raise_invalidKeyLength s)).symm.trans he)
        exact .invalidKeyLength k v hp hk
  | gen =>
    by_cases hp : s.phase = .Zeroed ∨ s.phase = .Ready
    · obtain rfl := Host.Outcome.next.inj ((execGen_ok hp).symm.trans he)
      exact .gen hp
    · exact absurd ((execGen_notUsable hp).symm.trans he) (notUsable_ne_next s t)
  | xform data =>
    by_cases hp : s.phase = .Zeroed ∨ s.phase = .Ready
    · obtain rfl := Host.Outcome.next.inj ((execXform_ok hp data).symm.trans he)
      exact .xform data hp
    · exact absurd ((execXform_notUsable hp data).symm.trans he) (notUsable_ne_next s t)
  | release =>
    by_cases hp : s.phase = .Released
    · exact absurd ((execRelease_notUsable hp).symm.trans he) (notUsable_ne_next s t)
    · obtain rfl := Host.Outcome.next.inj ((execRelease_ok hp).symm.trans he)
      exact .release hp

/-! ## One step -/

/-- Everything `fetch` answers. -/
theorem fetch_ok {s t : State} {i : Instr} (hf : fetch s = .ok (i, t)) :
    ∃ rest, decode s.commandPort = .ok (i, rest) ∧ t = { s with commandPort := rest } := by
  unfold fetch at hf
  split at hf
  · next j rest hd =>
    cases hf
    exact ⟨rest, hd, rfl⟩
  · cases hf
  · cases hf
  · cases hf

theorem fetch_of_decode {s : State} {i : Instr} {rest : List Byte} (hd : decode s.commandPort = .ok (i, rest)) :
    fetch s = .ok (i, { s with commandPort := rest }) := by
  unfold fetch
  rw [hd]

theorem fetch_error_not_next {s : State} {o : Host.Outcome State Fault Refusal} (hf : fetch s = .error o) (t : State) :
    o ≠ .next t := by
  unfold fetch at hf
  split at hf
  · cases hf
  · cases hf; simp
  · cases hf; simp
  · cases hf; simp [raise]

/-- The inversion lemma of `step`. -/
theorem step_next {s t : State} (hs : step s = .next t) :
    ∃ i rest, decode s.commandPort = .ok (i, rest) ∧ CommandEffect { s with commandPort := rest } i t := by
  unfold step at hs
  split at hs
  · next i u hf =>
    obtain ⟨rest, hd, rfl⟩ := fetch_ok hf
    exact ⟨i, rest, hd, exec_next hs⟩
  · next o hf => exact absurd hs (fetch_error_not_next hf t)

end Sys2Proof.Machine
end

