-- ==== Sys2Proof/Tests/Slice0.lean ====
section
/-! SUPPORT. The model's own tests, expected values from 95_test_vectors.md and the rules' examples, and one witness
for the hypotheses of each statement. -/

namespace Sys2Proof.Tests

open Sys2Proof.Machine

/-! ## States -/

/-- The reset state in a given phase, with given bytes on the command port. -/
def start (p : Phase) (bs : List Byte) : State := { State.reset with phase := p, commandPort := bs }

/-- 95_test_vectors.md section 4.1: `T[a] = a`, `X[k] = k`, `Y[k] = 16 + k`, a given counter. -/
def synthetic (counter : BitVec 10) : Context where
  table := (List.range 1023).map fun a => (a + 1, BitVec.ofNat 32 (a + 1))
  feedbackP := Vector.ofFn fun k => BitVec.ofNat 32 k.val
  feedbackQ := Vector.ofFn fun k => BitVec.ofNat 32 (16 + k.val)
  counter := counter
  key := Vector.replicate 16 0
  keylen := 0
  iv := Vector.replicate 16 0

/-- An iv of zeros. -/
def iv0 : Vector Byte 16 := Vector.replicate 16 0

/-- A Context with a given key, and the iv 10 11 .. 1f of V4. -/
def keyed (key : List Byte) : Context :=
  copyOperands key (Vector.ofFn fun j => BitVec.ofNat 8 (16 + j.val)) Context.zeroed

/-- A SETUP packet with zero operand bytes. -/
def setupPacket (keylen : Nat) : List Byte := 0x02 :: BitVec.ofNat 8 keylen :: List.replicate (keylen + 16) 0x00

/-! ## WellFormed -/

theorem test_wf_refuses_256_key_bytes : (Instr.setup (List.replicate 256 0) iv0).wf = false := by
  simp only [Instr.wf, List.length_replicate, lt_self_iff_false, decide_false]

theorem test_wf_accepts_255_key_bytes : (Instr.setup (List.replicate 255 0) iv0).wf = true := by
  simp only [Instr.wf, List.length_replicate]
  decide

theorem test_wf_refuses_2_pow_32_data_bytes : (Instr.xform (List.replicate (2 ^ 32) 0)).wf = false := by
  simp only [Instr.wf, List.length_replicate, lt_self_iff_false, decide_false]

/-! ## Decode: words written out from 30_encoding.md R62 to R64, R68 -/

theorem test_decode_clear : decode [0x01, 0x99] = .ok (.clear, [0x99]) := by decide
theorem test_decode_gen : decode [0x03] = .ok (.gen, []) := by decide
theorem test_decode_release : decode [0x05, 0x05] = .ok (.release, [0x05]) := by decide

/-- P5's first packet, with an iv of ascending bytes. -/
theorem test_decode_setup :
    decode [0x02, 0x05, 0x01, 0x02, 0x03, 0x04, 0x05, 0x10, 0x11, 0x12, 0x13, 0x14, 0x15, 0x16, 0x17, 0x18, 0x19, 0x1a,
      0x1b, 0x1c, 0x1d, 0x1e, 0x1f] =
      .ok (.setup [0x01, 0x02, 0x03, 0x04, 0x05] (Vector.ofFn fun j => BitVec.ofNat 8 (16 + j.val)), []) := by decide

/-- R130's example packet. -/
theorem test_decode_xform :
    decode [0x04, 0x06, 0x00, 0x00, 0x00, 0x48, 0x43, 0x2d, 0x31, 0x32, 0x38, 0x03] =
      .ok (.xform [0x48, 0x43, 0x2d, 0x31, 0x32, 0x38], [0x03]) := by decide

/-- R64: LEN[15:8] counts 256 bytes: this packet is not complete. -/
theorem test_decode_xform_length_bytes : decode [0x04, 0x00, 0x01, 0x00, 0x00, 0x48] = .error .incomplete := by decide

theorem test_decode_reserved :
    decode [0x00] = .error .illegalCommand ∧ decode [0x06, 0x01] = .error .illegalCommand ∧
      decode [0xFF] = .error .illegalCommand := by decide

/-- The opcode table's five words, their operand bytes 0. -/
theorem test_decodeTableWord :
    decodeTableWord 8 0x01 = some .clear ∧ decodeTableWord 8 0x02 = some (.setup [] iv0) ∧
      decodeTableWord 8 0x03 = some .gen ∧ decodeTableWord 8 0x04 = some (.xform []) ∧
      decodeTableWord 8 0x05 = some .release ∧ decodeTableWord 8 0x06 = none := by decide

/-! ## Primitives: V1, V3, and the examples of 42_updater_generator.md R112 and R116 -/

theorem test_rotations :
    rotr 0x12345678 10 = 0x9e048d15 ∧ rotr 0x12345678 23 = 0x68acf024 ∧ rotl 0x12345678 10 = 0xd159e048 ∧
      rotl 0x12345678 23 = 0x3c091a2b ∧ rotl 0x12345678 8 = 0x34567812 := by decide

theorem test_expansion_functions : f1 0x000000ff = 0xfe3fc01e ∧ f2 0x000000ff = 0x00606000 := by decide

theorem test_byte_fields : lo8 0x12345678 = 0x78 ∧ mid8 0x12345678 = 0x34 := by decide

theorem test_byte_order : le32 0x00 0x01 0x02 0x03 = 0x03020100 ∧ bytesLe 0x73150082 = [0x82, 0x00, 0x15, 0x73] := by
  decide

theorem test_g :
    g (sideOf 0) 0x0000000d 0x00000006 0x00000001 = 0x09400200 ∧
      g (sideOf 512) 0x0000001d 0x00000016 0x00000201 = 0x00808a01 := by decide

theorem test_h :
    h (sideOf 0) (synthetic 0) 0x00000004 = 0x00000504 ∧ h (sideOf 512) (synthetic 512) 0x00000014 = 0x00000114 := by
  decide +kernel

/-! ## The Updater/Generator on the synthetic state: V10, V11, V13, V15 -/

/-- V10, V11, V13, the row k = 0: a generate sub-step and an update sub-step of P-mode, an update sub-step of Q-mode. -/
theorem test_substeps :
    (genSubstep (sideOf 0) 0 (synthetic 0, [])).2 = [0x09400704] ∧
    (genSubstep (sideOf 0) 0 (synthetic 0, [])).1.F .X 0 = 0x09400200 ∧
    (updSubstep (sideOf 0) 0 (synthetic 0)).F .X 0 = 0x09400704 ∧
    (updSubstep (sideOf 512) 0 (synthetic 512)).T 512 = 0x00808d15 := by decide +kernel

/-- V15: the emitted words of the last Q-mode generate call, where nxt and the counter wrap. -/
theorem test_gen16_Q_mode_wraps :
    (gen16Words (synthetic 1008)).2 =
      [0xf8808ce5, 0xf90093e7, 0xf98096e5, 0xf837e5c1, 0xf8cbe8c1, 0xf95fefc5, 0x24137acd, 0xd3a789c2,
       0x833b94c0, 0xb0ef7e97, 0xe4315c5f, 0x10ea681e, 0xc41620c6, 0x7259e374, 0x220de04b, 0xb879c204] ∧
    (gen16 (synthetic 1008)).1.counter = 0 := by decide +kernel

/-! ## The Table Initializer: V4, V20 -/

/-- V4, the rows of KEYLEN 5 and KEYLEN 3. -/
theorem test_packing_key :
    (List.range 8).map (packKeyAndIv (keyed [0x01, 0x02, 0x03, 0x04, 0x05])).T =
      [0x04030201, 0x03020105, 0x02010504, 0x01050403, 0x05040302, 0x04030201, 0x03020105, 0x02010504] ∧
    (List.range 8).map (packKeyAndIv (keyed [0x11, 0x22, 0x33])).T =
      [0x11332211, 0x22113322, 0x33221133, 0x11332211, 0x22113322, 0x33221133, 0x11332211, 0x22113322] := by
  decide +kernel

/-- V4, the iv. -/
theorem test_packing_iv :
    (List.range 8).map (fun i => (packKeyAndIv (keyed [0xaa])).T (8 + i)) =
      [0x13121110, 0x17161514, 0x1b1a1918, 0x1f1e1d1c, 0x13121110, 0x17161514, 0x1b1a1918, 0x1f1e1d1c] := by
  decide +kernel

/-- V20: T[16..19] of the first expansion over an all-zero key and iv: the loop's first four turns. -/
theorem test_first_expansion :
    [16, 17, 18, 19].map (forUp (expandAt 0) 16 4 Context.zeroed).T =
      [0x00000010, 0x00000011, 0x000a0012, 0x000aa013] := by decide +kernel

/-! ## Commands: V30, V60 -/

theorem test_clear_from_released :
    ∃ t, step (start .Released [0x01]) = .next t ∧ t.phase = .Zeroed ∧ t.responsePort = [0x00] ∧ t.commandPort = [] :=
  ⟨_, rfl, rfl, rfl, rfl⟩

theorem test_setup_17_key_bytes :
    ∃ t, step (start .Ready (setupPacket 17)) = .next t ∧ t.phase = .Undefined ∧ t.responsePort = [0x01] ∧
      t.commandPort = [] :=
  ⟨_, rfl, rfl, rfl, rfl⟩

theorem test_setup_priority_in_released :
    step (start .Released (setupPacket 17)) = .refused (.notUsable
      { start .Released [] with responsePort := [0x02] }) := rfl

/-- V30: GEN on a Zeroed context. -/
theorem test_gen_zeroed :
    ∃ t, step (start .Zeroed [0x03]) = .next t ∧ t.responsePort = 0x00 :: List.replicate 64 0x00 ∧
      t.ctx.counter = 16 :=
  ⟨_, rfl, by decide +kernel, by decide +kernel⟩

theorem test_gen_undefined :
    step (start .Undefined [0x03]) = .refused (.notUsable { start .Undefined [] with responsePort := [0x02] }) := rfl

/-- V30: XFORM of 41 42 43 on a Zeroed context. -/
theorem test_xform_zeroed :
    ∃ t, step (start .Zeroed [0x04, 0x03, 0x00, 0x00, 0x00, 0x41, 0x42, 0x43]) = .next t ∧
      t.responsePort = [0x00, 0x41, 0x42, 0x43] ∧ t.ctx.counter = 16 :=
  ⟨_, rfl, by decide +kernel, by decide +kernel⟩

/-- V60: all 7 bytes consumed, no payload. -/
theorem test_xform_undefined :
    step (start .Undefined [0x04, 0x02, 0x00, 0x00, 0x00, 0xaa, 0xbb]) =
      .refused (.notUsable { start .Undefined [] with responsePort := [0x02] }) := rfl

theorem test_release_undefined :
    ∃ t, step (start .Undefined [0x05]) = .next t ∧ t.phase = .Released ∧ t.responsePort = [0x00] :=
  ⟨_, rfl, rfl, rfl⟩

theorem test_release_released :
    step (start .Released [0x05]) = .refused (.notUsable { start .Released [] with responsePort := [0x02] }) := rfl

/-- V60: ff 01 is two packets. -/
theorem test_reserved_then_clear :
    step (start .Ready [0xff, 0x01]) =
      .fault (.illegalCommand { start .Ready [0x01] with responsePort := [0xff] }) := rfl

theorem test_withFetchWord : step (State.reset.withFetchWord 8 0x05) = exec .release State.reset := rfl

/-! ## Witnesses: for each statement with hypotheses, states and operands that meet them all -/

theorem witness_StepKeepsCanonicalTable :
    ∃ s t, CanonicalTable s ∧ s.ctx.table ≠ [] ∧ step s = .next t :=
  ⟨{ start .Ready [0x01] with ctx := { Context.zeroed with table := [(0, 1), (1023, 2)] } }, _, by
    constructor <;> simp [Memory.unlisted], by simp, rfl⟩

theorem witness_StepKeepsCounterAligned : ∃ s t, CounterAligned s ∧ s.ctx.counter = 1008 ∧ step s = .next t :=
  ⟨{ start .Ready [0x03] with ctx := { Context.zeroed with counter := 1008 } }, _, fun _ => rfl, rfl, rfl⟩

theorem witness_StepKeepsZeroedContextZero : ∃ s t, ZeroedIsZero s ∧ s.phase = .Zeroed ∧ step s = .next t :=
  ⟨start .Zeroed [0x03], _, fun _ => rfl, rfl, rfl⟩

theorem witness_StepKeepsWindowsCachingTheTable :
    ∃ s t, CounterAligned s ∧ WindowsCacheTheTable s ∧ step s = .next t :=
  ⟨start .Zeroed [0x03], _, fun _ => rfl, fun _ k _ => by
    simp [start, State.reset, Context.zeroed, Context.F, Context.window, Context.T, Memory.unlisted], rfl⟩

theorem witness_ReleaseEntersReleased :
    (start .Undefined []).phase ≠ .Released ∧ (start .Released []).phase = .Released := by decide

theorem witness_BadKeyLengthLeavesUndefined :
    decode (setupPacket 0) = .ok (.setup [] iv0, []) ∧
    decode (setupPacket 17) = .ok (.setup (List.replicate 17 0) iv0, []) ∧
    decode (setupPacket 255) = .ok (.setup (List.replicate 255 0) iv0, []) ∧
    (start .Zeroed []).phase ≠ .Released := by decide +kernel

theorem witness_NotUsableExactlyWhenThePhaseForbids :
    (∃ i rest, decode (start .Undefined [0x03]).commandPort = .ok (i, rest)) ∧
    ∃ r, step (start .Undefined [0x03]) = .refused r := ⟨⟨_, _, rfl⟩, _, rfl⟩

theorem witness_ReservedOpcodeIsIllegalCommand :
    ∀ b0 ∈ [0x00, 0x06, 0xFF], (start .Ready [b0, 0x01]).commandPort = b0 :: [0x01] ∧
      (b0 = (0x00 : Byte) ∨ 0x06 ≤ b0.toNat) := by decide

theorem witness_ExceptionsInPriorityOrder :
    (start .Released [0x06]).commandPort = [0x06] ∧ (start .Released [0x06]).phase = .Released ∧
    (start .Ready []).phase ≠ .Released ∧ ¬ (1 ≤ ([] : List Byte).length ∧ ([] : List Byte).length ≤ 16) := by decide

theorem witness_PhaseTransitions :
    (∃ t, exec .clear (start .Released []) = .next t) ∧ (∃ t, exec (.setup [1] iv0) (start .Undefined []) = .next t) ∧
    (∃ t, exec (.setup [] iv0) (start .Ready []) = .next t) ∧ (∃ t, exec .gen (start .Zeroed []) = .next t) ∧
    (∃ t, exec (.xform [1]) (start .Ready []) = .next t) ∧ ∃ t, exec .release (start .Ready []) = .next t :=
  ⟨⟨_, rfl⟩, ⟨_, rfl⟩, ⟨_, rfl⟩, ⟨_, rfl⟩, ⟨_, rfl⟩, ⟨_, rfl⟩⟩

theorem witness_ResponsePackets :
    (start .Zeroed [0xFF]).commandPort = [0xFF] ∧ ((0xFF : Byte) = 0x00 ∨ 0x06 ≤ (0xFF : Byte).toNat) := by decide

/-- One byte short and exactly whole, for each format with operands; and a reserved opcode. -/
theorem witness_CommandsWaitForTheWholePacket :
    step (start .Ready ((setupPacket 0).take 17)) = .fault .packetIncomplete ∧
    (∃ i, decode (setupPacket 0) = .ok (i, [])) ∧
    step (start .Ready [0x04, 0x00, 0x00, 0x00]) = .fault .packetIncomplete ∧
    decode [0x04, 0x00, 0x00, 0x00, 0x00] = .ok (.xform [], []) ∧
    ∃ t, step (start .Ready [0x00]) = .fault (.illegalCommand t) :=
  ⟨rfl, ⟨_, rfl⟩, rfl, rfl, _, rfl⟩

theorem witness_DecodeInvertsEncode :
    (Instr.setup (List.replicate 255 0x55) iv0).wf = true ∧ (Instr.xform []).wf = true ∧ Instr.gen.wf = true := by
  simp only [Instr.wf, List.length_replicate]
  decide

theorem witness_EncodeInvertsDecode : ∃ i rest, decode [0x04, 0x01, 0x00, 0x00, 0x00, 0xaa, 0x05] = .ok (i, rest) :=
  ⟨_, _, rfl⟩

theorem witness_PacketLayouts :
    (List.replicate 255 (0x55 : Byte)).length < 256 ∧ (List.replicate 300 (0x55 : Byte)).length < 2 ^ 32 := by
  simp only [List.length_replicate]
  decide

theorem witness_StepRunsTheDecodedCommand :
    ∃ i rest, decode (start .Zeroed [0x03, 0x05]).commandPort = .ok (i, rest) := ⟨_, _, rfl⟩

theorem witness_StepConsumesOnePacket : ∃ t, step (start .Zeroed [0x03, 0x05]) = .next t := ⟨_, rfl⟩

theorem witness_RotationsAreRotations : (0 < 1 ∧ 1 < 32) ∧ 0 < 31 ∧ 31 < 32 := by decide

theorem witness_SlotAddressing :
    (0 : BitVec 10).toNat % 16 = 0 ∧ (1008 : BitVec 10).toNat % 16 = 0 ∧ (496 : BitVec 10).toNat % 512 = 496 ∧
      (1008 : BitVec 10).toNat % 512 = 496 := by decide

theorem witness_UpdateSubstep : 0 < 16 ∧ 15 < 16 := by decide

theorem witness_GenerateSubstep : 0 < 16 ∧ 15 < 16 := by decide

theorem witness_GenRunsOneGenerateCall :
    (start .Zeroed []).phase = .Zeroed ∧ (start .Ready []).phase = .Ready ∧ (start .Undefined []).phase = .Undefined ∧
      (start .Released []).phase = .Released := by decide

/-- Two Contexts that mirror each other and are not equal; and the last counter of P-mode. -/
theorem witness_MirrorConstruction :
    (∃ c d, Mirrored c d ∧ c ≠ d) ∧ (496 : BitVec 10).toNat < 512 := by
  refine ⟨⟨{ Context.zeroed with feedbackP := Vector.replicate 16 1 },
    { Context.zeroed with feedbackQ := Vector.replicate 16 1 },
    ⟨by simp [Context.zeroed, Context.T], fun f k => ?_⟩, by decide⟩, by decide⟩
  cases f <;> simp [WindowName.other, Context.F, Context.window, Context.zeroed]

theorem witness_EveryWordHasOneSlotPerCycle :
    (0 : BitVec 10).toNat % 16 = 0 ∧ (1008 : BitVec 10).toNat % 16 = 0 ∧ 1023 < 1024 := by decide

/-- Zeroed at reset, and Zeroed with the counter moved on. -/
theorem witness_ZeroedContextGivesZeroKeystream :
    (ZeroedIsZero State.reset ∧ State.reset.phase = .Zeroed) ∧
    ∃ s, ZeroedIsZero s ∧ s.phase = .Zeroed ∧ s.ctx.counter = 1008 :=
  ⟨⟨fun _ => rfl, rfl⟩, { State.reset with ctx := { Context.zeroed with counter := 1008 } }, fun _ => rfl, rfl, rfl⟩

theorem witness_XformXorsTheKeystream :
    ((start .Zeroed []).phase = .Zeroed ∨ (start .Zeroed []).phase = .Ready) ∧
    ((start .Ready []).phase = .Zeroed ∨ (start .Ready []).phase = .Ready) := by decide

theorem witness_XformOfNothing :
    ((start .Ready []).phase = .Zeroed ∨ (start .Ready []).phase = .Ready) ∧
    ((start .Released []).phase = .Undefined ∨ (start .Released []).phase = .Released) := by decide

theorem witness_ChunkingAtBlockBoundaries :
    (64 ∣ ([] : List Byte).length ∧ 64 ∣ (List.replicate 128 (0 : Byte)).length) ∧
    (∃ t, exec (.xform [1]) (start .Ready []) = .next t) ∧
    ∃ t, exec (.xform ([1] ++ List.replicate ((64 - 1 % 64) % 64) 0)) (start .Ready []) = .next t :=
  ⟨⟨⟨0, rfl⟩, ⟨2, List.length_replicate⟩⟩, ⟨_, rfl⟩, _, rfl⟩

/-- Key lengths 1 and 16, the ends of the legal range. -/
theorem witness_DecryptionInvertsEncryption :
    CanonicalTable (start .Undefined []) ∧ (start .Undefined []).phase ≠ .Released ∧
    (∀ key ∈ [[(0x55 : Byte)], List.replicate 16 0x55], 1 ≤ key.length ∧ key.length ≤ 16) :=
  ⟨Memory.wf_nil, by decide, by decide⟩

/-- A table word that is no slot, a window on no call's side, for both commands. -/
theorem witness_CipherCommandsFrame :
    (∃ t, exec .gen (start .Ready []) = .next t) ∧ (∃ t, exec (.xform [1]) (start .Ready []) = .next t) ∧
    (∀ m < 1, ∀ k < 16, 16 ≠ slot (sideOf ((start .Ready []).ctx.counter + BitVec.ofNat 10 (16 * m))) k) ∧
    ∀ m < 1, WindowName.Y ≠ (sideOf ((start .Ready []).ctx.counter + BitVec.ofNat 10 (16 * m))).F :=
  ⟨⟨_, rfl⟩, ⟨_, rfl⟩, by decide, by decide⟩

theorem witness_SecondExpansionStep :
    ∃ c c' : Context, c ≠ c' ∧ ∀ a < 16, c.T a = c'.T a :=
  ⟨{ Context.zeroed with table := [(16, 1)] }, Context.zeroed, by decide, by decide⟩

theorem witness_SetupFollowsTheSixSteps :
    (start .Ready []).phase ≠ .Released ∧
    (∀ key ∈ [[(0x55 : Byte)], List.replicate 16 0x55], 1 ≤ key.length ∧ key.length ≤ 16) := by decide

theorem witness_SetupForgetsThePriorState :
    ∃ s s' : State, s.ctx ≠ s'.ctx ∧ CanonicalTable s ∧ CanonicalTable s' ∧ s.phase ≠ .Released ∧
      s'.phase ≠ .Released :=
  ⟨start .Zeroed [], { start .Ready [] with ctx := { Context.zeroed with table := [(16, 1)] } }, by decide,
    Memory.wf_nil, by constructor <;> simp [Memory.unlisted], by decide, by decide⟩

end Sys2Proof.Tests
end

section
/-! SUPPORT. The statements of 00_scope.md: one step is the decoded command (R4), and the rotations (R9). -/

namespace Sys2Proof.Machine

/-! ## One step (R4) -/

theorem step_of_fetch {s t : State} {i : Instr} (hf : fetch s = .ok (i, t)) : step s = exec i t := by
  unfold step
  rw [hf]

/-- Settles O20: `fetch` answers the decoded command with the state without its packet, and `step` executes what `fetch`
answers. -/
theorem stepRunsTheDecodedCommand : Obligations.StepRunsTheDecodedCommand := by
  unfold Obligations.StepRunsTheDecodedCommand
  intro s i rest hd
  exact step_of_fetch (fetch_of_decode hd)

/-! ## Rotations (R9) -/

theorem rotl_eq_rotr_sub (x : Word) {n : Nat} (hn : n ≤ 32) : rotl x n = rotr x (32 - n) := by
  unfold rotl rotr
  rw [Nat.sub_sub_self hn, BitVec.add_comm]

/-- The two shifts of a rotation occupy disjoint bits: below `w - n` and from `w - n` on. -/
theorem ushiftRight_and_shiftLeft_sub {w : Nat} (x y : BitVec w) (n : Nat) : x >>> n &&& y <<< (w - n) = 0#w := by
  ext i hi
  simp only [BitVec.getElem_and, BitVec.getElem_ushiftRight, BitVec.getElem_shiftLeft, BitVec.getElem_zero]
  by_cases hlow : i < w - n
  · simp [hlow]
  · have hout : w ≤ n + i := by omega
    simp [BitVec.getLsbD_of_ge x (n + i) hout]

/-- No carry: the formula's sum is the bitwise or of `rotateRight`. -/
theorem rotr_eq_rotateRight (x : Word) {n : Nat} (hn : n < 32) : rotr x n = x.rotateRight n := by
  unfold rotr
  rw [BitVec.rotateRight_def, Nat.mod_eq_of_lt hn]
  exact BitVec.add_eq_or_of_and_eq_zero _ _ (ushiftRight_and_shiftLeft_sub x x n)

theorem shiftLeft_and_ushiftRight_sub (x : Word) {n : Nat} (hn : n ≤ 32) : x <<< n &&& x >>> (32 - n) = 0#32 := by
  have hdisjoint := ushiftRight_and_shiftLeft_sub x x (32 - n)
  rwa [Nat.sub_sub_self hn, BitVec.and_comm] at hdisjoint

theorem rotl_eq_rotateLeft (x : Word) {n : Nat} (hn : n < 32) : rotl x n = x.rotateLeft n := by
  unfold rotl
  rw [BitVec.rotateLeft_def, Nat.mod_eq_of_lt hn]
  exact BitVec.add_eq_or_of_and_eq_zero _ _ (shiftLeft_and_ushiftRight_sub x hn.le)

theorem toNat_rotr (x : Word) (n : Nat) :
    (rotr x n).toNat = (x.toNat / 2 ^ n + x.toNat * 2 ^ (32 - n)) % 2 ^ 32 := by
  unfold rotr
  rw [BitVec.toNat_add, BitVec.toNat_ushiftRight, BitVec.toNat_shiftLeft, Nat.shiftRight_eq_div_pow, Nat.shiftLeft_eq,
    Nat.add_mod_mod]

/-- The outer sum of R9's second formula has no `mod`, because it does not carry. -/
theorem toNat_rotl (x : Word) {n : Nat} (hn : n ≤ 32) :
    (rotl x n).toNat = x.toNat * 2 ^ n % 2 ^ 32 + x.toNat / 2 ^ (32 - n) := by
  unfold rotl
  rw [BitVec.toNat_add_of_and_eq_zero (shiftLeft_and_ushiftRight_sub x hn), BitVec.toNat_shiftLeft, BitVec.toNat_ushiftRight,
    Nat.shiftLeft_eq, Nat.shiftRight_eq_div_pow]

/-- Settles O22: the values from the shifts, and both agreements with the bit vector's rotations from their disjoint
bits. -/
theorem rotationsAreRotations : Obligations.RotationsAreRotations := by
  unfold Obligations.RotationsAreRotations
  intro x n _ hn
  exact ⟨toNat_rotr x n, toNat_rotl x hn.le, rotl_eq_rotr_sub x hn.le, rotr_eq_rotateRight x hn,
    rotl_eq_rotateLeft x hn⟩

end Sys2Proof.Machine
end

section
/-! SUPPORT. The statements of 10_state.md: reset (R35), the invariants that every step keeps (R28 to R30, R36), the
phases (R28), and the copies of key and iv (R26, R27). -/

namespace Sys2Proof.Machine

/-! ## Invariants of the phase and the Context -/

/-- What reset and CLEAR establish, SETUP and one generate call keep, and an arbitrary Context has in the phases that a
failed SETUP and a RELEASE leave, every step keeps. -/
theorem step_keeps (I : Phase → Context → Prop) (hzeroed : I .Zeroed Context.zeroed)
    (hsetup : ∀ p c k v, I p c → I .Ready (initializeTable (copyOperands k v c)))
    (hcall : ∀ p c, I p c → I p (gen16 c).1) (hundefined : ∀ n, I .Undefined (Context.anyValue n))
    (hreleased : ∀ n, I .Released (Context.anyValue n)) {s t : State} (hs : I s.phase s.ctx)
    (hstep : step s = .next t) : I t.phase t.ctx := by
  obtain ⟨i, rest, -, heffect⟩ := step_next hstep
  cases heffect with
  | clear => exact hzeroed
  | setup k v => exact hsetup s.phase s.ctx k v hs
  | invalidKeyLength => exact hundefined s.freeDraws
  | gen => exact hcall s.phase s.ctx hs
  | xform data => exact transform_keeps (I s.phase) (hcall s.phase) data hs
  | release => exact hreleased s.freeDraws

/-! ## The windows cache the table (R29) -/

/-- R29 of one Context with an aligned counter: each window holds the words that the latest call on its half wrote. -/
def Caching (c : Context) : Prop :=
  c.counter.toNat % 16 = 0 ∧ ∀ k < 16,
    c.F .X k = c.T (lastSlotP c.counter.toNat + k) ∧ c.F .Y k = c.T (lastSlotQ c.counter.toNat + k)

/-- R113: with an aligned counter the slots of a call do not wrap. -/
theorem slot_aligned {c0 : BitVec 10} (hc : c0.toNat % 16 = 0) {k : Nat} (hk : k < 16) :
    slot (sideOf c0) k = c0.toNat + k := by
  have := c0.isLt
  rcases sideOf_cases c0 with ⟨hlt, hside⟩ | ⟨hge, hside⟩
  · simp only [slot, hside]
    omega
  · simp only [slot, hside]
    omega

/-! After a call the slot base of the latest call on its own half is the counter it began at; that of the other half is
the constant of `lastSlotQ` or `lastSlotP` before and after it, also where the mode changes. -/

theorem lastSlotP_after_P {n : Nat} (hn : n % 16 = 0) (hlt : n < 512) : lastSlotP ((n + 16) % 1024) = n := by
  unfold lastSlotP
  split <;> omega

theorem lastSlotQ_after_Q {n : Nat} (hn : n % 16 = 0) (hge : 512 ≤ n) (hlt : n < 1024) :
    lastSlotQ ((n + 16) % 1024) = n := by
  unfold lastSlotQ
  split <;> omega

theorem lastSlotQ_in_P {n : Nat} (hlt : n < 512) : lastSlotQ n = 1008 := if_pos hlt

theorem lastSlotP_in_Q {n : Nat} (hge : 512 ≤ n) : lastSlotP n = 496 := if_neg (Nat.not_lt.2 hge)

theorem lastSlotQ_after_P {n : Nat} (hn : n % 16 = 0) (hlt : n < 512) : lastSlotQ ((n + 16) % 1024) = 1008 := by
  unfold lastSlotQ
  split <;> omega

theorem lastSlotP_after_Q {n : Nat} (hn : n % 16 = 0) (hge : 512 ≤ n) (hlt : n < 1024) :
    lastSlotP ((n + 16) % 1024) = 496 := by
  unfold lastSlotP
  split <;> omega

theorem CallFrame.counter_aligned {c d : Context} (hf : CallFrame c d) (hc : c.counter.toNat % 16 = 0) :
    d.counter.toNat % 16 = 0 := by
  rw [hf.counter]
  omega

theorem CallFrame.active_F {c d : Context} (hf : CallFrame c d) (hc : c.counter.toNat % 16 = 0) {k : Nat}
    (hk : k < 16) : d.F (sideOf c.counter).F k = d.T (c.counter.toNat + k) := by
  rw [hf.active k hk, slot_aligned hc hk]

theorem CallFrame.inactive_F {c d : Context} (hf : CallFrame c d) {f : WindowName} (hne : f ≠ (sideOf c.counter).F)
    (k : Nat) : d.F f k = c.F f k := by
  rw [Context.F, Context.F, hf.inactive f hne]

/-- Words of the half that a call does not rewrite. -/
theorem CallFrame.inactive_T {c d : Context} (hf : CallFrame c d) {a : Nat}
    (ha : a < (sideOf c.counter).B ∨ (sideOf c.counter).B + 512 ≤ a) : d.T a = c.T a := by
  refine hf.table a fun k _ => ?_
  have := slot_range c.counter k
  omega

/-- R29: a call writes the words it caches, and leaves the window and the words of the other half alone. -/
theorem CallFrame.caching {c d : Context} (hf : CallFrame c d) (hc : Caching c) : Caching d := by
  obtain ⟨halign, hcache⟩ := hc
  refine ⟨hf.counter_aligned halign, fun k hk => ?_⟩
  obtain ⟨hX, hY⟩ := hcache k hk
  have hactive := hf.active_F halign hk
  rw [hf.counter]
  rcases sideOf_cases c.counter with ⟨hP, hside⟩ | ⟨hQ, hside⟩
  · have hwindow : d.F .Y k = c.F .Y k := hf.inactive_F (by simp [hside]) k
    have hword : d.T (1008 + k) = c.T (1008 + k) := hf.inactive_T (by simp only [hside]; omega)
    rw [lastSlotQ_in_P hP] at hY
    rw [lastSlotP_after_P halign hP, lastSlotQ_after_P halign hP, hwindow, hword]
    rw [hside] at hactive
    exact ⟨hactive, hY⟩
  · have hwindow : d.F .X k = c.F .X k := hf.inactive_F (by simp [hside]) k
    have hword : d.T (496 + k) = c.T (496 + k) := hf.inactive_T (by simp only [hside]; omega)
    rw [lastSlotP_in_Q hQ] at hX
    rw [lastSlotP_after_Q halign hQ c.counter.isLt, lastSlotQ_after_Q halign hQ c.counter.isLt, hwindow, hword]
    rw [hside] at hactive
    exact ⟨hX, hactive⟩

theorem caching_zeroed : Caching Context.zeroed := by
  refine ⟨rfl, fun k _ => ?_⟩
  simp [Context.zeroed, Context.F, Context.window, Context.T, Memory.unlisted]

theorem Context.F_setF_other (c : Context) {f f' : WindowName} (hf : f' ≠ f) (k j : Nat) (v : Word) :
    (c.setF f k v).F f' j = c.F f' j := by
  rw [Context.F, Context.F, Context.setF_window_other c f f' k v hf]

@[simp] theorem seedWindows_T (c : Context) (a : Nat) : (seedWindows c).T a = c.T a := by
  rw [Context.T, Context.T, seedWindows_table]

/-- R99: step 5 fills the windows from the last words of each half. -/
theorem seedWindows_F (c : Context) :
    ∀ k < 16, (seedWindows c).F .X k = c.T (496 + k) ∧ (seedWindows c).F .Y k = c.T (1008 + k) := by
  refine (forUp_induct (fun n (t : Context) => t.table = c.table ∧
    ∀ k < n, t.F .X k = c.T (496 + k) ∧ t.F .Y k = c.T (1008 + k))
    ⟨rfl, fun k hk => absurd hk (by omega)⟩ fun n hn t ⟨htable, hdone⟩ => ⟨by simpa using htable, fun k hk => ?_⟩).2
  have hT : ∀ a, t.T a = c.T a := fun a => by rw [Context.T, Context.T, htable]
  rw [Nat.zero_add, Context.F_setF_other _ (by decide), Context.F_setF_same, Context.F_setF_same,
    Context.F_setF_other _ (by decide), Nat.mod_eq_of_lt hn, Nat.mod_eq_of_lt (show k < 16 by omega), hT, hT]
  by_cases hkn : k = n
  · simp [hkn]
  · simp only [if_neg hkn]
    exact hdone k (by omega)

/-- Before the first call on either half, a window caches the last words of its half. -/
theorem caching_of_last_words {c : Context} (hc : ∀ k < 16, c.F .X k = c.T (496 + k) ∧ c.F .Y k = c.T (1008 + k)) :
    Caching { c with counter := 0 } := by
  have hP : lastSlotP (0 : BitVec 10).toNat = 496 := by decide
  have hQ : lastSlotQ (0 : BitVec 10).toNat = 1008 := by decide
  refine ⟨rfl, fun k hk => ?_⟩
  rw [hP, hQ]
  exact hc k hk

/-- R99, R100: the warm-up starts from windows that cache the last words of each half, and is 64 calls. -/
theorem caching_initializeTable (c : Context) : Caching (initializeTable c) := by
  refine warmUp_keeps Caching (fun c hc => (upd16_spec c).frame.caching hc) (caching_of_last_words ?_)
  simp only [seedWindows_T]
  exact seedWindows_F _

/-- Settles O6: with the alignment of the counter, caching is kept by every call, holds of the zeroed Context, and
holds after SETUP. -/
theorem stepKeepsWindowsCachingTheTable : Obligations.StepKeepsWindowsCachingTheTable := by
  unfold Obligations.StepKeepsWindowsCachingTheTable
  intro s t halign hcache hstep hp
  have hs : s.phase = .Zeroed ∨ s.phase = .Ready → Caching s.ctx := fun hp => ⟨halign hp, hcache hp⟩
  have ht : t.phase = .Zeroed ∨ t.phase = .Ready → Caching t.ctx :=
    step_keeps (fun p c => p = .Zeroed ∨ p = .Ready → Caching c) (fun _ => caching_zeroed)
      (fun _ _ _ _ _ _ => caching_initializeTable _) (fun _ c hc hp => (gen16_spec c).frame.caching (hc hp))
      (fun _ => by simp) (fun _ => by simp) hs hstep
  exact (ht hp).2

/-! ## The counter stays aligned (R30) -/

/-- R100: SETUP ends with an aligned counter, because its update calls begin at 0. -/
theorem counter_aligned_initializeTable (c : Context) : (initializeTable c).counter.toNat % 16 = 0 :=
  (caching_initializeTable c).1

/-- Settles O4: CLEAR and SETUP leave an aligned counter, and a call adds 16. -/
theorem stepKeepsCounterAligned : Obligations.StepKeepsCounterAligned := by
  unfold Obligations.StepKeepsCounterAligned
  intro s t hs hstep
  exact step_keeps (fun p c => p = .Zeroed ∨ p = .Ready → c.counter.toNat % 16 = 0) (fun _ => rfl)
    (fun _ _ _ _ _ _ => counter_aligned_initializeTable _)
    (fun _ c hc hp => (gen16_spec c).frame.counter_aligned (hc hp)) (fun _ => by simp) (fun _ => by simp) hs hstep

/-! ## The Zeroed Context (R28, R36) -/

/-- The Context of phase Zeroed: zero but for the counter. -/
def Context.zeroedAt (n : BitVec 10) : Context := { Context.zeroed with counter := n }

theorem eq_zeroedAt_iff {c : Context} : c = Context.zeroedAt c.counter ↔ { c with counter := 0 } = Context.zeroed := by
  cases c
  simp [Context.zeroedAt, Context.zeroed]

theorem Context.zeroedAt_T (n : BitVec 10) (a : Nat) : (Context.zeroedAt n).T a = 0 := rfl

theorem Context.zeroedAt_F (n : BitVec 10) (f : WindowName) (k : Nat) : (Context.zeroedAt n).F f k = 0 := by
  cases f <;> simp [Context.zeroedAt, Context.zeroed, Context.F, Context.window]

theorem Context.setT_zeroedAt (n : BitVec 10) (a : Nat) :
    (Context.zeroedAt n).setT a 0 = Context.zeroedAt n := rfl

@[simp] theorem Window.write_replicate (v : Word) (k : Nat) :
    Window.write (Vector.replicate 16 v) k v = Vector.replicate 16 v := by
  refine Window.ext_of_read fun j _ => ?_
  simp [Window.read_write]

theorem Context.setF_zeroedAt (n : BitVec 10) (f : WindowName) (k : Nat) :
    (Context.zeroedAt n).setF f k 0 = Context.zeroedAt n := by
  cases f <;> simp [Context.setF, Context.zeroedAt, Context.zeroed]

/-- g of zero operands is zero in either direction. -/
theorem g_zero (sd : Side) : g sd 0 0 0 = 0 := by
  unfold g
  cases sd.dir <;> decide

theorem gSum_zeroedAt (sd : Side) (n : BitVec 10) (k : Nat) : gSum sd (Context.zeroedAt n) k = 0 := by
  rw [gSum, Context.zeroedAt_T, Context.zeroedAt_T, Context.zeroedAt_F, Context.zeroedAt_F, g_zero]
  rfl

theorem hTerm_zeroedAt (sd : Side) (n : BitVec 10) (k : Nat) : hTerm sd (Context.zeroedAt n) k = 0 := by
  rw [hTerm, h, Context.zeroedAt_T, Context.zeroedAt_T]
  rfl

theorem store_zeroedAt (sd : Side) (n : BitVec 10) (k : Nat) :
    store sd (Context.zeroedAt n) k 0 = Context.zeroedAt n := by
  rw [store, Context.setT_zeroedAt, Context.setF_zeroedAt]

/-- R36: a sub-step on a Zeroed Context stores zero and emits zero. -/
theorem genSubstep_zeroedAt (sd : Side) (k : Nat) (n : BitVec 10) (out : List Word) :
    genSubstep sd k (Context.zeroedAt n, out) = (Context.zeroedAt n, out ++ [0]) := by
  simp only [genSubstep, gSum_zeroedAt, hTerm_zeroedAt, store_zeroedAt, BitVec.xor_self]
  rfl

theorem gen16Words_zeroedAt (n : BitVec 10) :
    gen16Words (Context.zeroedAt n) = (Context.zeroedAt n, List.replicate 16 0) := by
  refine forUp_induct (fun m (t : Context × List Word) => t = (Context.zeroedAt n, List.replicate m 0)) rfl ?_
  rintro m - t rfl
  rw [genSubstep_zeroedAt, List.replicate_succ']

/-- R36: a generate call on a Zeroed Context gives zero keystream and changes the counter alone. -/
theorem gen16_zeroedAt (n : BitVec 10) :
    gen16 (Context.zeroedAt n) = (Context.zeroedAt (n + 16), List.replicate 64 0) := by
  rw [gen16, gen16Words_zeroedAt]
  rfl

/-- Settles O5: CLEAR zeroes the Context, no other command enters phase Zeroed, and a call on a Zeroed Context changes
the counter alone. -/
theorem stepKeepsZeroedContextZero : Obligations.StepKeepsZeroedContextZero := by
  unfold Obligations.StepKeepsZeroedContextZero
  intro s t hs hstep
  refine step_keeps (fun p c => p = .Zeroed → { c with counter := 0 } = Context.zeroed) (fun _ => rfl) (by simp)
    (fun _ c hc hp => ?_) (fun _ => by simp) (fun _ => by simp) hs hstep
  rw [eq_zeroedAt_iff.2 (hc hp), gen16_zeroedAt]
  rfl

/-- Settles O34: phase Zeroed is accepted, and the invariant makes the Context `zeroedAt` its counter. -/
theorem zeroedContextGivesZeroKeystream : Obligations.ZeroedContextGivesZeroKeystream := by
  unfold Obligations.ZeroedContextGivesZeroKeystream
  intro s hzero hp
  have hctx : s.ctx = Context.zeroedAt s.ctx.counter := eq_zeroedAt_iff.2 (hzero hp)
  generalize s.ctx.counter = n at hctx
  rw [exec_gen, execGen_ok (.inl hp), hctx, gen16_zeroedAt]
  rfl

/-! ## Which phase accepts what, and the phase left (R28) -/

/-- R28: acceptance in the words of its table. -/
theorem accepts_iff (p : Phase) (i : Instr) :
    accepts p i ↔ (p = .Undefined → i ≠ .gen ∧ ∀ data, i ≠ .xform data) ∧ (p = .Released → i = .clear) := by
  cases i <;> cases p <;> simp [accepts]

theorem exec_next_iff (i : Instr) (s : State) : (∃ t, exec i s = .next t) ↔ accepts s.phase i := by
  rcases exec_outcome i s with ⟨ha, hnext⟩ | ⟨hn, hrefused⟩
  · exact iff_of_true hnext ha
  · exact iff_of_false (fun ⟨t, ht⟩ => notUsable_ne_next s t (hrefused.symm.trans ht)) hn

/-- Settles O13: a next state means acceptance, and each way a command ends with a next state sets the phase. -/
theorem phaseTransitions : Obligations.PhaseTransitions := by
  unfold Obligations.PhaseTransitions
  refine ⟨fun i s => (exec_next_iff i s).trans (accepts_iff s.phase i), fun i s t ht => ?_⟩
  cases exec_next ht with
  | clear => rfl
  | setup k v _ hk => exact (if_pos hk).symm
  | invalidKeyLength k v _ hk => exact (if_neg hk).symm
  | gen => rfl
  | xform => rfl
  | release => rfl

/-! ## The copies of key and iv (R26, R27) -/

theorem sameButKeyCopies_iff {s t : State} :
    SameButKeyCopies s t ↔ Like s.ctx t.ctx ∧ s.phase = t.phase ∧ s.commandPort = t.commandPort ∧
      s.responsePort = t.responsePort ∧ s.freeDraws = t.freeDraws := by
  constructor
  · rintro ⟨key, keylen, iv, rfl⟩
    exact ⟨⟨rfl, rfl, rfl, rfl⟩, rfl, rfl, rfl, rfl⟩
  · rintro ⟨⟨htable, hP, hQ, hcounter⟩, hphase, hcommand, hresponse, hdraws⟩
    refine ⟨t.ctx.key, t.ctx.keylen, t.ctx.iv, ?_⟩
    simp only [State.withKeyCopies, htable, hP, hQ, hcounter, hphase, hcommand, hresponse, hdraws]

theorem Like.refl (c : Context) : Like c c := ⟨rfl, rfl, rfl, rfl⟩

theorem Like.expandAt {c d : Context} (hl : Like c d) (offset i : Nat) :
    Like (expandAt offset i c) (expandAt offset i d) := by
  rw [Machine.expandAt, Machine.expandAt, hl.T, hl.T, hl.T, hl.T]
  exact hl.setT _ _

theorem Like.whiten {c d : Context} (hl : Like c d) : Like (whiten c) (whiten d) :=
  forUp_rel Like hl fun i s t _ _ hst => by
    rw [hst.T]
    exact hst.setT _ _

theorem Like.seedWindows {c d : Context} (hl : Like c d) : Like (seedWindows c) (seedWindows d) :=
  forUp_rel Like hl fun i s t _ _ hst => by
    rw [hst.T, hst.T]
    exact (hst.setF _ _ _).setF _ _ _

/-- Alike Contexts that pack the same key field and the same iv field. -/
structure LikePacked (c d : Context) : Prop where
  like : Like c d
  keyField : keyFieldByte c = keyFieldByte d
  ivField : ivFieldByte c = ivFieldByte d

/-- A table write leaves both copies alone. -/
theorem LikePacked.setT {c d : Context} (hl : LikePacked c d) (a : Nat) (v : Word) :
    LikePacked (c.setT a v) (d.setT a v) := ⟨hl.like.setT a v, hl.keyField, hl.ivField⟩

/-- R93, R94: step 1 takes from the copies nothing but the two packed fields. -/
theorem LikePacked.packKeyAndIv {c d : Context} (hl : LikePacked c d) :
    LikePacked (packKeyAndIv c) (packKeyAndIv d) := by
  refine forUp_rel LikePacked (forUp_rel LikePacked hl fun i s t _ _ hst => ?_) fun i s t _ _ hst => ?_
  · rw [hst.keyField]
    exact hst.setT _ _
  · rw [hst.ivField]
    exact hst.setT _ _

theorem LikePacked.initializeTable {c d : Context} (hl : LikePacked c d) :
    Like (initializeTable c) (initializeTable d) := by
  have hfirst : Like (firstExpansion (Machine.packKeyAndIv c)) (firstExpansion (Machine.packKeyAndIv d)) :=
    forUp_rel Like hl.packKeyAndIv.like fun i _ _ _ _ hst => hst.expandAt 0 i
  have hsecond := forUp_rel Like hfirst.whiten (a := 16) (N := 1008) fun i _ _ _ _ hst => hst.expandAt 256 i
  exact hsecond.seedWindows.warmUp

/-- R93: a legal key fills the key field alone, whatever the key copy held before. -/
theorem keyFieldByte_copyOperands {k : List Byte} (hk : 1 ≤ k.length ∧ k.length ≤ 16) (v : Vector Byte 16)
    (c : Context) (j : Nat) : keyFieldByte (copyOperands k v c) j = k.getD (j % k.length) 0 := by
  have hlt : j % k.length < k.length := Nat.mod_lt j hk.1
  have hlen : k.length % 17 = k.length := Nat.mod_eq_of_lt (by omega)
  have hmod : j % k.length % 16 = j % k.length := Nat.mod_eq_of_lt (by omega)
  simp only [keyFieldByte, copyOperands, keypack, Fin.val_ofNat, hlen, Buffer.read_copyIn, hmod, if_pos hlt]

/-- R101: SETUP takes nothing from the copies it overwrites. -/
theorem Like.setup {c d : Context} (hl : Like c d) {k : List Byte} (hk : 1 ≤ k.length ∧ k.length ≤ 16)
    (v : Vector Byte 16) :
    Like (Machine.initializeTable (copyOperands k v c)) (Machine.initializeTable (copyOperands k v d)) := by
  refine LikePacked.initializeTable ⟨⟨hl.table, hl.feedbackP, hl.feedbackQ, rfl⟩, funext fun j => ?_, rfl⟩
  rw [keyFieldByte_copyOperands hk, keyFieldByte_copyOperands hk]

/-- Two commands' next states agree when their Contexts do and the rest is written alike. -/
theorem SameButKeyCopies.respond {s s' : State} (hs : SameButKeyCopies s s') {c c' : Context} (hc : Like c c')
    {p p' : Phase} (hp : p = p') {d d' : Nat} (hd : d = d') {bs bs' : List Byte} (hbs : bs = bs') :
    SameButKeyCopies ({ s with ctx := c, phase := p, freeDraws := d }.respond bs)
      ({ s' with ctx := c', phase := p', freeDraws := d' }.respond bs') := by
  obtain ⟨-, -, hcommand, hresponse, -⟩ := sameButKeyCopies_iff.1 hs
  exact sameButKeyCopies_iff.2 ⟨hc, hp, hcommand, congrArg₂ (· ++ ·) hresponse hbs, hd⟩

/-- R26, R27: what commands accepted on both sides leave; a draw depends on its number alone (log entry 5). -/
theorem SameButKeyCopies.next {s s' t t' : State} {i : Instr} (hs : SameButKeyCopies s s') (ht : exec i s = .next t)
    (ht' : exec i s' = .next t') : SameButKeyCopies t t' := by
  obtain ⟨hctx, hphase, -, -, hdraws⟩ := sameButKeyCopies_iff.1 hs
  have hfree : Like (Context.anyValue s.freeDraws) (Context.anyValue s'.freeDraws) := hdraws ▸ .refl _
  have hdraws' : s.freeDraws + 1 = s'.freeDraws + 1 := congrArg (· + 1) hdraws
  cases exec_next ht with
  | clear =>
    cases exec_next ht'
    exact hs.respond (.refl _) rfl hdraws rfl
  | setup k v _ hk =>
    cases exec_next ht' with
    | setup => exact hs.respond (hctx.setup hk v) rfl hdraws rfl
    | invalidKeyLength _ _ _ hk' => exact absurd hk hk'
  | invalidKeyLength k v _ hk =>
    cases exec_next ht' with
    | setup _ _ _ hk' => exact absurd hk' hk
    | invalidKeyLength => exact hs.respond hfree rfl hdraws' rfl
  | gen =>
    cases exec_next ht'
    exact hs.respond hctx.gen16.1 hphase hdraws (congrArg _ hctx.gen16.2)
  | xform data =>
    cases exec_next ht'
    exact hs.respond (hctx.transform data).1 hphase hdraws (congrArg _ (hctx.transform data).2)
  | release =>
    cases exec_next ht'
    exact hs.respond hfree rfl hdraws' rfl

/-- Settles O49: acceptance depends on the phase alone, so both commands end with next states that agree, or both are
refused. -/
theorem keyAndIvCopiesAreUnobservable : Obligations.KeyAndIvCopiesAreUnobservable := by
  unfold Obligations.KeyAndIvCopiesAreUnobservable
  intro s key keylen iv i
  have hs : SameButKeyCopies s (s.withKeyCopies key keylen iv) := ⟨key, keylen, iv, rfl⟩
  generalize s.withKeyCopies key keylen iv = s' at hs
  obtain ⟨hctx, hphase, hcommand, hresponse, hdraws⟩ := sameButKeyCopies_iff.1 hs
  have haccepts := exec_outcome i s'
  rw [← hphase] at haccepts
  rcases exec_outcome i s with ⟨ha, t, ht⟩ | ⟨hn, hr⟩
  · obtain ⟨-, t', ht'⟩ := haccepts.resolve_right fun h => h.1 ha
    exact .inl ⟨t, t', ht, ht', hs.next ht ht'⟩
  · have hr' := (haccepts.resolve_left fun h => hn h.1).2
    rw [hr, hr', raise_notUsable, raise_notUsable]
    exact .inr ⟨_, _, rfl, rfl, sameButKeyCopies_iff.2 ⟨hctx, hphase, hcommand, by simp [hresponse], hdraws⟩⟩

/-! ## Reset (R35) -/

/-- Settles O1: each field read off `State.reset`. -/
theorem resetStateIsAllZero : Obligations.ResetStateIsAllZero := by
  unfold Obligations.ResetStateIsAllZero
  exact ⟨fun _ => rfl, fun k => ⟨Window.read_replicate 0 k, Window.read_replicate 0 k⟩, rfl,
    fun j => ⟨Buffer.read_replicate 0 j, Buffer.read_replicate 0 j⟩, rfl, rfl, rfl, rfl, fun _ => rfl,
    fun _ => ⟨_, rfl, rfl, rfl⟩⟩

/-- Settles O2: all four are the invariants of the zeroed Context. -/
theorem resetMeetsInvariants : Obligations.ResetMeetsInvariants := by
  unfold Obligations.ResetMeetsInvariants
  exact ⟨Memory.wf_nil, fun _ => rfl, fun _ => rfl, fun _ => caching_zeroed.2⟩

end Sys2Proof.Machine
end

section
/-! SUPPORT. The statements of 20_memory.md: the table's canonical form (R40, R41, R46), the ports (R53, R55), and the
byte order of the keystream (R44). -/

namespace Sys2Proof

open Machine (le32 bytesLe)

/-! ## What the decoder reads is a packet (R53) -/

/-- R63: the format K bytes that decode are the packet of the command they decode to. -/
theorem decodeK_ok {bs rest : List Byte} {i : Instr} (hd : decodeK bs = .ok (i, rest)) :
    i.wf = true ∧ encode i ++ rest = 0x02 :: bs := by
  cases bs with
  | nil => cases hd
  | cons b1 bs =>
    rw [decodeK_cons] at hd
    split at hd
    · cases hd
    · next hlen =>
      cases hd
      have hkey : (bs.take b1.toNat).length = b1.toNat := List.length_take_of_le (by omega)
      have hiv : (ivOfBytes (bs.drop b1.toNat)).toList = (bs.drop b1.toNat).take 16 :=
        toList_ivOfBytes (by rw [List.length_drop]; omega)
      refine ⟨by simpa [Instr.wf, hkey] using b1.isLt, ?_⟩
      simp only [encode, hkey, hiv, BitVec.ofNat_toNat, BitVec.setWidth_eq, List.cons_append, List.append_assoc,
        ← List.drop_drop, List.take_append_drop]

/-- R64: the format D bytes that decode are the packet of the command they decode to. -/
theorem decodeD_ok {bs rest : List Byte} {i : Instr} (hd : decodeD bs = .ok (i, rest)) :
    i.wf = true ∧ encode i ++ rest = 0x04 :: bs := by
  match bs with
  | [] | [_] | [_, _] | [_, _, _] => cases hd
  | b1 :: b2 :: b3 :: b4 :: bs =>
    rw [decodeD_cons] at hd
    split at hd
    · cases hd
    · next hlen =>
      cases hd
      have hdata : (bs.take (le32 b1 b2 b3 b4).toNat).length = (le32 b1 b2 b3 b4).toNat :=
        List.length_take_of_le (by omega)
      refine ⟨by simpa [Instr.wf, hdata] using (le32 b1 b2 b3 b4).isLt, ?_⟩
      simp only [encode, hdata, BitVec.ofNat_toNat, BitVec.setWidth_eq, Machine.bytesLe_le32, List.cons_append,
        List.nil_append, List.take_append_drop]

/-- The inversion lemma of `decode`: a packet can express the command read, and the bytes are that packet and the rest
(R66). -/
theorem decode_ok {bs rest : List Byte} {i : Instr} (hd : decode bs = .ok (i, rest)) :
    i.wf = true ∧ encode i ++ rest = bs := by
  cases bs with
  | nil => cases hd
  | cons b0 bs =>
    rw [decode_cons] at hd
    split_ifs at hd with hclear hsetup hgen hxform hrelease
    · cases hd
      exact ⟨rfl, by rw [hclear]; rfl⟩
    · rw [hsetup]
      exact decodeK_ok hd
    · cases hd
      exact ⟨rfl, by rw [hgen]; rfl⟩
    · rw [hxform]
      exact decodeD_ok hd
    · cases hd
      exact ⟨rfl, by rw [hrelease]; rfl⟩

end Sys2Proof

namespace Sys2Proof.Machine

/-! ## The table's canonical form (R40, R41, R46) -/

/-- R90: copying the operands leaves the table alone. -/
@[simp] theorem copyOperands_table (k : List Byte) (v : Vector Byte 16) (c : Context) :
    (copyOperands k v c).table = c.table := rfl

theorem anyValue_wf (n : Nat) : Memory.wf (Context.anyValue n).table := Memory.wf_ofFn (Config.freeTable n)

/-- Settles O3: the zeroed table lists nothing, SETUP and a generate call write inside the table space only, and a draw
is built by such writes. -/
theorem stepKeepsCanonicalTable : Obligations.StepKeepsCanonicalTable := by
  unfold Obligations.StepKeepsCanonicalTable
  intro s t hs hstep
  exact step_keeps (fun _ c => Memory.wf c.table) Memory.wf_nil
    (fun _ c k v hc => initializeTable_wf (by rwa [copyOperands_table])) (fun _ _ hc => gen16_wf hc)
    anyValue_wf anyValue_wf hs hstep

/-! ## The ports (R53, R55) -/

/-- R53: no command takes or adds bytes on the command port. -/
theorem CommandEffect.commandPort_eq {s t : State} {i : Instr} (he : CommandEffect s i t) :
    t.commandPort = s.commandPort := by
  cases he <;> exact State.respond_commandPort _ _

/-- R55: every command that goes on answers with a status byte, behind the responses already there. -/
theorem CommandEffect.responsePort_eq {s t : State} {i : Instr} (he : CommandEffect s i t) :
    ∃ status payload, t.responsePort = s.responsePort ++ status :: payload := by
  cases he <;> exact ⟨_, _, State.respond_responsePort _ _⟩

/-- Settles O21: `fetch` consumes the packet of the decoded command, and the command itself only responds. -/
theorem stepConsumesOnePacket : Obligations.StepConsumesOnePacket := by
  unfold Obligations.StepConsumesOnePacket
  intro s t hstep
  obtain ⟨i, rest, hdecode, heffect⟩ := step_next hstep
  obtain ⟨status, payload, hresponse⟩ := heffect.responsePort_eq
  refine ⟨⟨i, ?_⟩, status :: payload, List.cons_ne_nil _ _, hresponse⟩
  rw [heffect.commandPort_eq]
  exact (decode_ok hdecode).2

/-! ## The byte order of the keystream (R44) -/

/-- R7: byte `j` of `bytes_le(w)` as arithmetic. -/
theorem toNat_getD_bytesLe (w : Word) {j : Nat} (hj : j < 4) :
    ((bytesLe w).getD j 0).toNat = w.toNat / 2 ^ (8 * j) % 256 := by
  have hbyte : (bytesLe w).getD j 0 = w.extractLsb' (8 * j) 8 := by
    interval_cases j <;> rfl
  rw [hbyte, BitVec.extractLsb'_toNat, Nat.shiftRight_eq_div_pow]

/-- R44: in the bytes of a list of words, those of word `k` stand at 4k to 4k+3. -/
theorem getD_flatMap_bytesLe {ws : List Word} {k j : Nat} (hk : k < ws.length) (hj : j < 4) :
    (ws.flatMap bytesLe).getD (4 * k + j) 0 = (bytesLe (ws.getD k 0)).getD j 0 := by
  induction ws generalizing k with
  | nil => exact absurd hk (Nat.not_lt_zero k)
  | cons w ws ih =>
    rw [List.flatMap_cons]
    cases k with
    | zero =>
      rw [Nat.mul_zero, Nat.zero_add, List.getD_append _ _ _ _ (by rwa [bytesLe_length]), List.getD_cons_zero]
    | succ k =>
      have hrest : 4 * (k + 1) + j - (bytesLe w).length = 4 * k + j := by rw [bytesLe_length]; omega
      rw [List.getD_append_right _ _ _ _ (by rw [bytesLe_length]; omega), hrest, List.getD_cons_succ]
      exact ih (Nat.lt_of_succ_lt_succ hk)

/-- R121: a generate call emits one word per sub-step. -/
@[simp] theorem gen16Words_length (c : Context) : (gen16Words c).2.length = 16 := by
  obtain ⟨-, -, hout⟩ := gen16Words_spec c
  rw [hout, List.length_map, List.length_range]

/-- Settles O30: the block is the emitted words' `bytes_le`, one after the other. -/
theorem keystreamBytesAreLittleEndian : Obligations.KeystreamBytesAreLittleEndian := by
  unfold Obligations.KeystreamBytesAreLittleEndian
  refine ⟨fun c => ⟨gen16Words_length c, gen16_length c, fun k hk j hj => ?_⟩, by decide⟩
  rw [gen16_snd, getD_flatMap_bytesLe (by rwa [gen16Words_length]) hj, toNat_getD_bytesLe _ hj]

end Sys2Proof.Machine
end

section
/-! SUPPORT. The statements of 30_encoding.md: the round trips between packets and commands (R61 to R70), the formats
(R62 to R64), waiting for the whole packet (R66), the responses (R65), and GEN as XFORM (R72). -/

namespace Sys2Proof

open Machine (bytesLe le32_bytesLe)

/-! ## The packet of a command decodes to it (R62 to R67) -/

/-- R63: KEYLEN is the key's length, so that the key ends where the iv begins. -/
theorem decodeK_operands {key : List Byte} (hkey : key.length < 256) (iv : Vector Byte 16) (rest : List Byte) :
    decodeK (BitVec.ofNat 8 key.length :: (key ++ (iv.toList ++ rest))) = .ok (.setup key iv, rest) := by
  have hkeylen : (BitVec.ofNat 8 key.length).toNat = key.length :=
    (BitVec.toNat_ofNat _ _).trans (Nat.mod_eq_of_lt hkey)
  have hiv : iv.toList.length = 16 := Vector.length_toList
  rw [decodeK_cons, hkeylen, if_neg (by simp only [List.length_append, hiv]; omega), List.take_left' rfl,
    ← List.drop_drop, List.drop_left' rfl, ivOfBytes_toList, List.drop_left' hiv]

/-- R64: LEN is the data's length. -/
theorem decodeD_operands {data : List Byte} (hdata : data.length < 2 ^ 32) (rest : List Byte) :
    decodeD (bytesLe (BitVec.ofNat 32 data.length) ++ (data ++ rest)) = .ok (.xform data, rest) := by
  have hlen : (BitVec.ofNat 32 data.length).toNat = data.length :=
    (BitVec.toNat_ofNat _ _).trans (Nat.mod_eq_of_lt hdata)
  simp only [bytesLe, List.cons_append, List.nil_append, decodeD_cons, le32_bytesLe, hlen]
  rw [if_neg (by rw [List.length_append]; omega), List.take_left' rfl, List.drop_left' rfl]

theorem decode_encode {i : Instr} (hw : i.wf = true) (rest : List Byte) : decode (encode i ++ rest) = .ok (i, rest) := by
  cases i with
  | clear => exact decode_clear rest
  | setup key iv =>
    simp only [encode, List.cons_append, List.append_assoc, decode_setup]
    exact decodeK_operands (of_decide_eq_true hw) iv rest
  | gen => exact decode_gen rest
  | xform data =>
    simp only [encode, List.cons_append, List.append_assoc, decode_xform]
    exact decodeD_operands (of_decide_eq_true hw) rest
  | release => exact decode_release rest

/-- Settles O16: format by format, the length field announces the operand it precedes. -/
theorem decodeInvertsEncode : Obligations.DecodeInvertsEncode := by
  unfold Obligations.DecodeInvertsEncode
  exact fun i rest hw => decode_encode hw rest

/-- Settles O17: the inversion lemma of `decode`. -/
theorem encodeInvertsDecode : Obligations.EncodeInvertsDecode := by
  unfold Obligations.EncodeInvertsDecode
  exact fun bs rest i hd => decode_ok hd

/-- Settles O19: each command's packet is the encoder's, and each rejected opcode falls through the dispatch. -/
theorem specPacketsDecode : Obligations.SpecPacketsDecode := by
  unfold Obligations.SpecPacketsDecode
  exact ⟨decode_clear [], decode_encode (i := .setup [0x01, 0x02, 0x03, 0x04, 0x05] (Vector.replicate 16 0)) rfl [0x03],
    decode_gen [0x03], decode_encode (i := .xform [0x48, 0x43, 0x2d, 0x31, 0x32, 0x38]) rfl [], decode_release [],
    rfl, rfl, rfl⟩

end Sys2Proof

namespace Sys2Proof.Machine

/-! ## The formats (R62 to R64) -/

/-- R63: the fields of format K. -/
theorem encode_setup_layout {key : List Byte} (hkey : key.length < 256) (iv : Vector Byte 16) :
    (encode (.setup key iv)).length = 18 + key.length ∧ (encode (.setup key iv)).getD 0 0 = 0x02 ∧
    ((encode (.setup key iv)).getD 1 0).toNat = key.length ∧
    (∀ j < key.length, (encode (.setup key iv)).getD (2 + j) 0 = key.getD j 0) ∧
    ∀ j < 16, (encode (.setup key iv)).getD (2 + key.length + j) 0 = Buffer.read iv j := by
  have hoperands : ∀ n, (encode (.setup key iv)).getD (2 + n) 0 = (key ++ iv.toList).getD n 0 := fun n => by
    rw [Nat.add_comm, encode, List.getD_cons_succ, List.getD_cons_succ]
  refine ⟨?_, rfl, (BitVec.toNat_ofNat _ _).trans (Nat.mod_eq_of_lt hkey), fun j hj => ?_, fun j hj => ?_⟩
  · simp only [encode, List.length_cons, List.length_append, Vector.length_toList]
    omega
  · rw [hoperands, List.getD_append _ _ _ _ hj]
  · rw [Nat.add_assoc, hoperands, List.getD_append_right _ _ _ _ (Nat.le_add_right _ _), Nat.add_sub_cancel_left]
    simp [Buffer.read, Nat.mod_eq_of_lt hj, hj]

/-- R64: the fields of format D. -/
theorem encode_xform_layout {data : List Byte} (hdata : data.length < 2 ^ 32) :
    (encode (.xform data)).length = 5 + data.length ∧ (encode (.xform data)).getD 0 0 = 0x04 ∧
    (∀ j < 4, ((encode (.xform data)).getD (1 + j) 0).toNat = data.length / 2 ^ (8 * j) % 256) ∧
    ∀ j < data.length, (encode (.xform data)).getD (5 + j) 0 = data.getD j 0 := by
  have hfields : ∀ n, (encode (.xform data)).getD (1 + n) 0 =
      (bytesLe (BitVec.ofNat 32 data.length) ++ data).getD n 0 := fun n => by
    rw [Nat.add_comm, encode, List.getD_cons_succ]
  refine ⟨?_, rfl, fun j hj => ?_, fun j _ => ?_⟩
  · simp only [encode, List.length_cons, List.length_append, bytesLe_length]
    omega
  · rw [hfields, List.getD_append _ _ _ _ hj, toNat_getD_bytesLe _ hj, BitVec.toNat_ofNat, Nat.mod_eq_of_lt hdata]
  · rw [show 5 + j = 1 + (4 + j) by omega, hfields, List.getD_append_right _ _ _ _ (Nat.le_add_right 4 j)]
    exact congrArg (data.getD · 0) (Nat.add_sub_cancel_left 4 j)

/-- Settles O18: format Z is the opcode byte, formats K and D from their layouts; byte 3 of LEN needs no reduction, LEN
being below 2^32. -/
theorem packetLayouts : Obligations.PacketLayouts := by
  unfold Obligations.PacketLayouts
  refine ⟨⟨rfl, rfl, rfl⟩, fun key iv hkey => encode_setup_layout hkey iv, fun data hdata => ?_⟩
  obtain ⟨hlength, hopcode, hlen, hbytes⟩ := encode_xform_layout hdata
  have hbyte0 := hlen 0 (by decide)
  have hbyte3 := hlen 3 (by decide)
  refine ⟨hlength, hopcode, ?_, hlen 1 (by decide), hlen 2 (by decide), ?_, hbytes⟩
  · rwa [Nat.mul_zero, pow_zero, Nat.div_one] at hbyte0
  · rwa [Nat.mod_eq_of_lt (by omega)] at hbyte3

end Sys2Proof.Machine

namespace Sys2Proof

open Machine (le32)

/-! ## The decoder waits for the whole packet (R66) -/

/-- R63: after the opcode byte, a packet of format K has 17 + KEYLEN bytes. -/
theorem decodeK_outcome (bs : List Byte) :
    (bs.length < 17 + (bs.getD 0 0).toNat ∧ decodeK bs = .error .incomplete) ∨
    (17 + (bs.getD 0 0).toNat ≤ bs.length ∧ ∃ i, decodeK bs = .ok (i, bs.drop (17 + (bs.getD 0 0).toNat))) := by
  cases bs with
  | nil => exact .inl ⟨by simp, rfl⟩
  | cons b1 bs =>
    rw [decodeK_cons, List.getD_cons_zero, List.length_cons]
    by_cases hshort : bs.length < b1.toNat + 16
    · exact .inl ⟨by omega, if_pos hshort⟩
    · refine .inr ⟨by omega, .setup (bs.take b1.toNat) (ivOfBytes (bs.drop b1.toNat)), ?_⟩
      rw [if_neg hshort, show 17 + b1.toNat = b1.toNat + 16 + 1 by omega, List.drop_succ_cons]

/-- R64: LEN, read from the four bytes at the head of `bs`; bytes not there count as 0. -/
def lenField (bs : List Byte) : Nat := (le32 (bs.getD 0 0) (bs.getD 1 0) (bs.getD 2 0) (bs.getD 3 0)).toNat

/-- R64: after the opcode byte, a packet of format D has 4 + LEN bytes. -/
theorem decodeD_outcome (bs : List Byte) :
    (bs.length < 4 + lenField bs ∧ decodeD bs = .error .incomplete) ∨
    (4 + lenField bs ≤ bs.length ∧ ∃ i, decodeD bs = .ok (i, bs.drop (4 + lenField bs))) := by
  match bs with
  | [] | [_] | [_, _] | [_, _, _] => exact .inl ⟨by simp only [List.length_cons, List.length_nil]; omega, rfl⟩
  | b1 :: b2 :: b3 :: b4 :: bs =>
    have hlen : lenField (b1 :: b2 :: b3 :: b4 :: bs) = (le32 b1 b2 b3 b4).toNat := rfl
    rw [hlen, decodeD_cons]
    simp only [List.length_cons]
    by_cases hshort : bs.length < (le32 b1 b2 b3 b4).toNat
    · exact .inl ⟨by omega, if_pos hshort⟩
    · refine .inr ⟨by omega, .xform (bs.take (le32 b1 b2 b3 b4).toNat), ?_⟩
      rw [if_neg hshort, Nat.add_comm 4]
      rfl

theorem packetLength_setup (rest : List Byte) : packetLength (0x02 :: rest) = 18 + (rest.getD 0 0).toNat := rfl

theorem packetLength_xform (rest : List Byte) : packetLength (0x04 :: rest) = 5 + lenField rest := rfl

theorem packetLength_of_ne {b0 : Byte} (hsetup : b0 ≠ 0x02) (hxform : b0 ≠ 0x04) (rest : List Byte) :
    packetLength (b0 :: rest) = 1 :=
  (if_neg hsetup).trans (if_neg hxform)

/-- R68: 0x00 and 0x06 to 0xFF are no command's opcode. -/
theorem reserved_iff (b0 : Byte) :
    (b0 = 0x00 ∨ 0x06 ≤ b0.toNat) ↔ b0 ≠ 0x01 ∧ b0 ≠ 0x02 ∧ b0 ≠ 0x03 ∧ b0 ≠ 0x04 ∧ b0 ≠ 0x05 := by
  bv_omega

/-- R68: a reserved opcode is rejected, whatever follows it. -/
theorem decode_reserved {b0 : Byte} (hb : b0 = 0x00 ∨ 0x06 ≤ b0.toNat) (rest : List Byte) :
    decode (b0 :: rest) = .error .illegalCommand := by
  obtain ⟨h1, h2, h3, h4, h5⟩ := (reserved_iff b0).1 hb
  rw [decode_cons, if_neg h1, if_neg h2, if_neg h3, if_neg h4, if_neg h5]

/-- R66: with a command's opcode at the head, whether the decoder waits or reads a command depends on the packet length
alone, and that length is what it takes off the stream. -/
theorem decode_outcome {b0 : Byte} (hb : ¬ (b0 = 0x00 ∨ 0x06 ≤ b0.toNat)) (rest : List Byte) :
    ((b0 :: rest).length < packetLength (b0 :: rest) ∧ decode (b0 :: rest) = .error .incomplete) ∨
    (packetLength (b0 :: rest) ≤ (b0 :: rest).length ∧
      ∃ i, decode (b0 :: rest) = .ok (i, (b0 :: rest).drop (packetLength (b0 :: rest)))) := by
  have hopcode : b0 = 0x01 ∨ b0 = 0x02 ∨ b0 = 0x03 ∨ b0 = 0x04 ∨ b0 = 0x05 := by
    rw [reserved_iff] at hb
    tauto
  rcases hopcode with rfl | rfl | rfl | rfl | rfl
  · exact .inr ⟨Nat.le_add_left 1 _, .clear, rfl⟩
  · rw [packetLength_setup, decode_setup, List.length_cons, show 18 + (rest.getD 0 0).toNat =
      17 + (rest.getD 0 0).toNat + 1 by omega, List.drop_succ_cons, Nat.add_lt_add_iff_right, Nat.add_le_add_iff_right]
    exact decodeK_outcome rest
  · exact .inr ⟨Nat.le_add_left 1 _, .gen, rfl⟩
  · rw [packetLength_xform, decode_xform, List.length_cons, show 5 + lenField rest = 4 + lenField rest + 1 by omega,
      List.drop_succ_cons, Nat.add_lt_add_iff_right, Nat.add_le_add_iff_right]
    exact decodeD_outcome rest
  · exact .inr ⟨Nat.le_add_left 1 _, .release, rfl⟩

end Sys2Proof

namespace Sys2Proof.Machine

/-! ## The step waits for the whole packet (R66, R143) -/

theorem step_of_incomplete {s : State} (hd : decode s.commandPort = .error .incomplete) :
    step s = .fault .packetIncomplete := by
  simp only [step, fetch, hd]

/-- R143: a reserved opcode consumes its one byte, answers FF and changes nothing else. -/
theorem step_reserved {s : State} {b0 : Byte} {rest : List Byte} (hport : s.commandPort = b0 :: rest)
    (hb : b0 = 0x00 ∨ 0x06 ≤ b0.toNat) :
    step s =
      .fault (.illegalCommand { s with commandPort := rest, responsePort := s.responsePort ++ [0xFF] }) := by
  simp only [step, fetch, hport, decode_reserved hb, raise_illegalCommand, List.drop_succ_cons, List.drop_zero]

/-- R66's length with LEN written out by R7's formula. -/
theorem packetLength_eq (b0 : Byte) (rest : List Byte) :
    packetLength (b0 :: rest) =
      if b0 = 0x02 then 18 + ((b0 :: rest).getD 1 0).toNat
      else if b0 = 0x04 then
        5 + (((b0 :: rest).getD 1 0).toNat + 256 * ((b0 :: rest).getD 2 0).toNat +
          65536 * ((b0 :: rest).getD 3 0).toNat + 16777216 * ((b0 :: rest).getD 4 0).toNat)
      else 1 := by
  rw [← le32_toNat]
  rfl

/-- Settles O15: the decoder waits exactly while fewer bytes than the packet length are there, and a reserved opcode is
a packet of one byte. -/
theorem commandsWaitForTheWholePacket : Obligations.CommandsWaitForTheWholePacket := by
  unfold Obligations.CommandsWaitForTheWholePacket
  intro s b0 rest hport
  dsimp only
  rw [hport, ← packetLength_eq]
  by_cases hb : b0 = 0x00 ∨ 0x06 ≤ b0.toNat
  · obtain ⟨-, hsetup, -, hxform, -⟩ := (reserved_iff b0).1 hb
    rw [packetLength_of_ne hsetup hxform]
    exact ⟨fun hshort => absurd hshort (Nat.not_lt.2 (Nat.le_add_left 1 _)), fun _ hn => absurd hb hn,
      fun _ => ⟨_, step_reserved hport hb, rfl⟩⟩
  · rcases decode_outcome hb rest with ⟨hshort, hd⟩ | ⟨hwhole, i, hd⟩
    · have hstep := step_of_incomplete (s := s) (hport ▸ hd)
      exact ⟨fun _ => ⟨hstep, by rw [hstep]; rfl⟩, fun hwhole => absurd hshort (Nat.not_lt.2 hwhole),
        fun hn => absurd hn hb⟩
    · exact ⟨fun hshort => absurd hwhole (Nat.not_le.2 hshort),
        fun _ _ => ⟨i, step_of_fetch (fetch_of_decode (hport ▸ hd))⟩, fun hn => absurd hn hb⟩

/-! ## The response packets (R65) -/

/-- Settles O14: what a completed command answers is read off its effect, a refused one answers 02 and a reserved opcode
FF. -/
theorem responsePackets : Obligations.ResponsePackets := by
  unfold Obligations.ResponsePackets
  refine ⟨fun s i => ?_, fun s b0 rest hport hb => ?_⟩
  · rcases exec_outcome i s with ⟨-, t, ht⟩ | ⟨hrefused, he⟩
    · rw [ht]
      cases exec_next ht with
      | clear => exact ⟨0x00, [], State.respond_responsePort _ _, .inl rfl, rfl, rfl⟩
      | setup k v => exact ⟨0x00, [], State.respond_responsePort _ _, .inl rfl, .inl rfl, rfl⟩
      | invalidKeyLength k v => exact ⟨0x01, [], State.respond_responsePort _ _, .inr rfl, .inr (.inl rfl), rfl⟩
      | gen =>
        exact ⟨0x00, (gen16 s.ctx).2, State.respond_responsePort _ _, .inl rfl,
          .inl ⟨rfl, gen16_snd s.ctx, gen16_length s.ctx⟩⟩
      | xform data =>
        exact ⟨0x00, (transform data s.ctx).2, State.respond_responsePort _ _, .inl rfl,
          .inl ⟨rfl, rfl, transform_length data s.ctx⟩⟩
      | release => exact ⟨0x00, [], State.respond_responsePort _ _, .inl rfl, .inl rfl, rfl⟩
    · refine ⟨0x02, [], by rw [he]; exact raise_answers .NotUsable s, .inr rfl, ?_⟩
      cases i with
      | clear => exact absurd trivial hrefused
      | setup k v => exact ⟨.inr (.inr rfl), rfl⟩
      | gen => exact .inr rfl
      | xform data => exact .inr rfl
      | release => exact ⟨.inr rfl, rfl⟩
  · rw [step_reserved hport hb]
    rfl

/-! ## GEN as XFORM (R72, R168) -/

/-- Data of zero bytes comes out as the keystream itself. -/
theorem xorBytes_zeros (ks : List Byte) : xorBytes (List.replicate ks.length 0) ks = ks := by
  induction ks with
  | nil => rfl
  | cons b ks ih =>
    rw [List.length_cons, List.replicate_succ, xorBytes, List.zipWith_cons_cons]
    exact congrArg₂ List.cons BitVec.zero_xor ih

/-- R72 (d): one whole block of zero bytes takes one generate call and nothing is left for the tail. -/
theorem transform_zeroBlock (c : Context) : transform (List.replicate 64 0) c = gen16 c := by
  have hblock : xorBytes (List.replicate 64 0) (gen16 c).2 = (gen16 c).2 := by
    simpa only [gen16_length] using xorBytes_zeros (gen16 c).2
  rw [transform_of_ge (by rw [List.length_replicate]), List.take_of_length_le (by rw [List.length_replicate]),
    List.drop_eq_nil_of_le (by rw [List.length_replicate]), transform_nil, List.append_nil, hblock]

/-- Settles O37: the phase check is the same, and the block of zero bytes comes out as the keystream block. -/
theorem genIsXformOfAZeroBlock : Obligations.GenIsXformOfAZeroBlock := by
  unfold Obligations.GenIsXformOfAZeroBlock
  intro s
  rw [exec_gen, exec_xform, execGen, execXform, transform_zeroBlock]

end Sys2Proof.Machine
end

section
/-! SUPPORT. The statements of 40_context_ops.md: CLEAR (R80) and RELEASE (R81). -/

namespace Sys2Proof.Machine

/-! ## CLEAR (R80) -/

theorem exec_clear (s : State) : exec .clear s = execClear s := rfl

theorem exec_clear_next (s : State) :
    ∃ t, exec .clear s = .next t ∧ t.ctx = Context.zeroed ∧ t.phase = .Zeroed ∧ t.commandPort = s.commandPort ∧
      t.responsePort = s.responsePort ++ [0x00] ∧ t.freeDraws = s.freeDraws :=
  next_fields (exec_clear s)

@[simp] theorem Context.zeroed_F (f : WindowName) (k : Nat) : Context.zeroed.F f k = 0 := Context.zeroedAt_F 0 f k

/-- Settles O7: the next state holds the zeroed Context, read field by field, and meets the invariant of phase Zeroed,
on which GEN gives zero keystream. -/
theorem clearZeroesTheContext : Obligations.ClearZeroesTheContext := by
  unfold Obligations.ClearZeroesTheContext
  intro s
  obtain ⟨t, ht, hctx, hphase, hcommand, hresponse, hdraws⟩ := exec_clear_next s
  have hzero : ZeroedIsZero t := fun _ => by rw [hctx]; rfl
  have hgen := zeroedContextGivesZeroKeystream t hzero hphase
  refine ⟨t, ht, ?_⟩
  rw [hctx]
  exact ⟨Context.zeroed_T, fun k => ⟨Context.zeroed_F .X k, Context.zeroed_F .Y k⟩,
    fun j => ⟨Buffer.read_replicate 0 j, Buffer.read_replicate 0 j⟩, rfl, Context.zeroed_counter, hphase, hresponse,
    hcommand, hdraws, _, hgen, rfl⟩

/-! ## RELEASE (R81) -/

/-- Settles O8: the phase alone decides between the next state and `NotUsable`. -/
theorem releaseEntersReleased : Obligations.ReleaseEntersReleased := by
  unfold Obligations.ReleaseEntersReleased
  refine fun s => ⟨fun hp => ?_, fun hp => ?_⟩
  · obtain ⟨t, ht, -, hphase, hcommand, hresponse, -⟩ := exec_release_next hp
    exact ⟨t, ht, hphase, hresponse, hcommand⟩
  · rw [exec_release, execRelease_notUsable hp, raise_notUsable]

end Sys2Proof.Machine
end

section
/-! SUPPORT. The statements of 41_table_initializer.md: the expansion functions (R95), what each of the six steps does
and leaves alone (R93 to R100), and the whole of SETUP (R90, R101). -/

namespace Sys2Proof.Machine

/-! ## The expansion functions (R95) -/

theorem f1_eq_rotateRight (x : Word) : f1 x = x.rotateRight 7 ^^^ x.rotateRight 18 ^^^ (x >>> 3) := by
  rw [f1, rotr_eq_rotateRight x (by decide), rotr_eq_rotateRight x (by decide)]

theorem f2_eq_rotateRight (x : Word) : f2 x = x.rotateRight 17 ^^^ x.rotateRight 19 ^^^ (x >>> 10) := by
  rw [f2, rotr_eq_rotateRight x (by decide), rotr_eq_rotateRight x (by decide)]

/-- Settles O24: the model's rotations are the bit vector's, and the examples are closed words. -/
theorem functionsF1F2 : Obligations.FunctionsF1F2 := by
  unfold Obligations.FunctionsF1F2
  exact ⟨f1_eq_rotateRight, f2_eq_rotateRight, by decide⟩

/-! ## Loops that fill a run of table words -/

/-- `d` is `c` with the words `w 0` to `w (n - 1)` at the addresses from `b` on, and nothing else changed. -/
structure Filled (c d : Context) (b n : Nat) (w : Nat → Word) : Prop where
  rest : { d with table := c.table } = c
  word : ∀ i < n, d.T (b + i) = w i
  frame : ∀ a, a < b ∨ b + n ≤ a → d.T a = c.T a

theorem rest_trans {c t d : Context} (ht : { t with table := c.table } = c) (hd : { d with table := t.table } = t) :
    { d with table := c.table } = c :=
  (congrArg (fun u : Context => { u with table := c.table }) hd).trans ht

theorem Filled.start (c : Context) (b : Nat) (w : Nat → Word) : Filled c c b 0 w :=
  ⟨rfl, fun _ hi => absurd hi (Nat.not_lt_zero _), fun _ _ => rfl⟩

theorem Filled.next {c d : Context} {b n : Nat} {w : Nat → Word} (hf : Filled c d b n w) :
    Filled c (d.setT (b + n) (w n)) b (n + 1) w where
  rest := hf.rest
  word i hi := by
    rw [Context.T_setT]
    by_cases hin : i = n
    · rw [hin, if_pos rfl]
    · rw [if_neg (by omega)]
      exact hf.word i (by omega)
  frame a ha := by
    rw [Context.T_setT, if_neg (by omega)]
    exact hf.frame a (by omega)

/-- A loop whose turn `n` writes `w n` behind the words written so far. -/
theorem forUp_filled {c : Context} {b N : Nat} {w : Nat → Word} {body : Nat → Context → Context}
    (hbody : ∀ n < N, ∀ t, Filled c t b n w → body n t = t.setT (b + n) (w n)) :
    Filled c (forUp body 0 N c) b N w := by
  refine forUp_induct (fun n t => Filled c t b n w) (.start c b w) fun n hn t ht => ?_
  rw [Nat.zero_add, hbody n hn t ht]
  exact ht.next

/-! ## Step 1: packing (R93, R94) -/

/-- What does not depend on the table, a fill leaves alone. -/
theorem Filled.same {α : Type} {f : Context → α} {c d : Context} {b n : Nat} {w : Nat → Word}
    (hf : ∀ (c : Context) (m : Memory), f { c with table := m } = f c) (hfill : Filled c d b n w) : f d = f c := by
  rw [← hf d c.table, hfill.rest]

/-- Step 1 fills T[0..7] from the key field, and then T[8..15] from the iv field. -/
theorem packKeyAndIv_filled (c : Context) :
    ∃ t, Filled c t 0 8 (packWord (keyFieldByte c)) ∧ Filled t (packKeyAndIv c) 8 8 (packWord (ivFieldByte c)) := by
  have hkey : Filled c (forUp (fun i c => c.setT i (packWord (keyFieldByte c) i)) 0 8 c) 0 8
      (packWord (keyFieldByte c)) :=
    forUp_filled fun n _ t ht => by rw [ht.same (f := keyFieldByte) fun _ _ => rfl, Nat.zero_add]
  refine ⟨_, hkey, forUp_filled fun n _ t ht => ?_⟩
  rw [ht.same (f := ivFieldByte) fun _ _ => rfl, hkey.same (f := ivFieldByte) fun _ _ => rfl]

theorem packKeyAndIv_T_key (c : Context) {i : Nat} (hi : i < 8) :
    (packKeyAndIv c).T i = packWord (keyFieldByte c) i := by
  obtain ⟨t, hkey, hiv⟩ := packKeyAndIv_filled c
  rw [hiv.frame i (.inl hi), ← hkey.word i hi, Nat.zero_add]

theorem packKeyAndIv_T_iv (c : Context) {i : Nat} (hi : i < 8) :
    (packKeyAndIv c).T (8 + i) = packWord (ivFieldByte c) i := by
  obtain ⟨t, -, hiv⟩ := packKeyAndIv_filled c
  exact hiv.word i hi

/-- Settles O41: two fills, the second of which leaves the words of the first alone. -/
theorem packingStep : Obligations.PackingStep := by
  unfold Obligations.PackingStep
  intro c
  obtain ⟨t, hkey, hiv⟩ := packKeyAndIv_filled c
  refine ⟨fun i hi => packKeyAndIv_T_key c hi, fun i hi => packKeyAndIv_T_iv c hi, fun a ha => ?_, ?_⟩
  · rw [hiv.frame a (.inr ha), hkey.frame a (.inr (by omega))]
  · exact rest_trans hkey.rest hiv.rest

/-! ## Steps 2 to 4: expansion (R96 to R98) -/

/-- Settles O42: the loop of steps 2 and 4, with offset 0 and 256 indices. -/
theorem firstExpansionStep : Obligations.FirstExpansionStep := by
  unfold Obligations.FirstExpansionStep
  intro c
  obtain ⟨hrest, hword, hframe⟩ := forUp_expandAt 0 256 c
  simp only [Nat.zero_add] at hword
  exact ⟨fun i h16 hi => hword i h16 (by omega), fun a ha => hframe a (by omega), hrest⟩

/-- Step 3 fills T[0..15] with words that it does not overwrite. -/
theorem whiten_filled (c : Context) : Filled c (whiten c) 0 16 fun i => c.T (256 + i) :=
  forUp_filled fun n _ t ht => by rw [ht.frame (256 + n) (.inr (by omega)), Nat.zero_add]

/-- Settles O43: step 3 is a fill. -/
theorem whiteningStep : Obligations.WhiteningStep := by
  unfold Obligations.WhiteningStep
  intro c
  have hfill := whiten_filled c
  refine ⟨fun i hi => ?_, fun a ha => hfill.frame a (.inr ha), hfill.rest⟩
  rw [← hfill.word i hi, Nat.zero_add]

/-- The recurrence of R96 and R98 at the `N` indices from 16 on, with the constant `off + i`. -/
def Recurs (off N : Nat) (U : Nat → Word) : Prop :=
  ∀ i, 16 ≤ i → i < 16 + N →
    U i = f2 (U (i - 2)) + U (i - 7) + f1 (U (i - 15)) + U (i - 16) + BitVec.ofNat 32 (off + i)

theorem recurs_expandAt (off N : Nat) (c : Context) : Recurs off N (forUp (expandAt off) 16 N c).T :=
  (forUp_expandAt off N c).2.1

theorem forUp_expandAt_T_lt (off N : Nat) (c : Context) {a : Nat} (ha : a < 16) :
    (forUp (expandAt off) 16 N c).T a = c.T a :=
  (forUp_expandAt off N c).2.2 a (.inl ha)

/-- The first 16 words determine all that follow. -/
theorem Recurs.unique {off N : Nat} {U V : Nat → Word} (hU : Recurs off N U) (hV : Recurs off N V)
    (hstart : ∀ i < 16, U i = V i) : ∀ i < 16 + N, U i = V i := by
  intro i
  induction i using Nat.strong_induction_on with
  | h i ih =>
    intro hi
    by_cases h16 : i < 16
    · exact hstart i h16
    · rw [hU i (by omega) hi, hV i (by omega) hi, ih (i - 2) (by omega) (by omega), ih (i - 7) (by omega) (by omega),
        ih (i - 15) (by omega) (by omega), ih (i - 16) (by omega) (by omega)]

theorem Recurs.mono {off M N : Nat} {U : Nat → Word} (hU : Recurs off N U) (hMN : M ≤ N) : Recurs off M U :=
  fun i h16 hi => hU i h16 (by omega)

/-- R98: a recurrence read from index `m` on is the recurrence with `m` added to its constant. -/
theorem Recurs.shift {off m N : Nat} {U : Nat → Word} (hU : Recurs off (m + N) U) :
    Recurs (off + m) N fun i => U (m + i) := by
  intro i h16 hi
  have hrec := hU (m + i) (by omega) (by omega)
  rwa [Nat.add_sub_assoc (by omega), Nat.add_sub_assoc (by omega), Nat.add_sub_assoc (by omega),
    Nat.add_sub_assoc (by omega), ← Nat.add_assoc] at hrec

/-- R98: the sequence W over the first 16 words of the table: step 2's loop, run on to index 1279. -/
def expansionSeq (c : Context) : Nat → Word := (forUp (expandAt 0) 16 1264 c).T

theorem recurs_expansionSeq (c : Context) : Recurs 0 1264 (expansionSeq c) := recurs_expandAt 0 1264 c

theorem expansionSeq_lt (c : Context) {i : Nat} (hi : i < 16) : expansionSeq c i = c.T i :=
  forUp_expandAt_T_lt 0 1264 c hi

theorem isExpansionOf_expansionSeq {c : Context} {p : Nat → Word} (hp : ∀ i < 16, c.T i = p i) :
    IsExpansionOf p (expansionSeq c) := by
  refine ⟨fun i hi => (expansionSeq_lt c hi).trans (hp i hi), fun i h16 hi => ?_⟩
  rw [recurs_expansionSeq c i h16 hi, Nat.zero_add]

theorem expansionSeq_congr {c d : Context} (hcd : ∀ i < 16, c.T i = d.T i) :
    ∀ i < 1280, expansionSeq c i = expansionSeq d i :=
  (recurs_expansionSeq c).unique (recurs_expansionSeq d) fun i hi => by
    rw [expansionSeq_lt c hi, expansionSeq_lt d hi, hcd i hi]

theorem firstExpansion_T (c : Context) : ∀ i < 272, (firstExpansion c).T i = expansionSeq c i :=
  (recurs_expandAt 0 256 c).unique ((recurs_expansionSeq c).mono (by omega)) fun i hi => by
    rw [expansionSeq_lt c hi, forUp_expandAt_T_lt 0 256 c hi]

/-- R98: step 3 moves W[256..271] to the start of the table, from where step 4 computes W on. -/
theorem secondExpansion_T (c : Context) :
    ∀ a < 1024, (secondExpansion (whiten (firstExpansion c))).T a = expansionSeq c (256 + a) := by
  refine (recurs_expandAt 256 1008 _).unique ?_ fun a ha => ?_
  · exact (recurs_expansionSeq c).shift (m := 256)
  · have hcopy := (whiten_filled (firstExpansion c)).word a ha
    rw [Nat.zero_add] at hcopy
    rw [forUp_expandAt_T_lt 256 1008 _ ha, hcopy, firstExpansion_T c _ (by omega)]

/-- Settles O44: the loop with offset 256; its recurrence has one solution over given first 16 words; and the sequence
W is step 2's loop run on. -/
theorem secondExpansionStep : Obligations.SecondExpansionStep := by
  unfold Obligations.SecondExpansionStep
  refine ⟨fun c => ?_, fun c c' hcc' => ?_, fun c => ?_⟩
  · obtain ⟨hrest, hword, hframe⟩ := forUp_expandAt 256 1008 c
    exact ⟨fun i h16 hi => hword i h16 (by omega), fun a ha => hframe a (by omega), hrest⟩
  · refine (recurs_expandAt 256 1008 c).unique (recurs_expandAt 256 1008 c') fun i hi => ?_
    exact (forUp_expandAt_T_lt 256 1008 c hi).trans ((hcc' i hi).trans (forUp_expandAt_T_lt 256 1008 c' hi).symm)
  · exact ⟨expansionSeq c, isExpansionOf_expansionSeq fun _ _ => rfl, secondExpansion_T c⟩

/-! ## Step 5: seeding (R99) -/

/-- Step 5 writes nothing but the windows. -/
theorem seedWindows_rest (c : Context) :
    { seedWindows c with feedbackP := c.feedbackP, feedbackQ := c.feedbackQ } = c :=
  forUp_keeps (fun t : Context => { t with feedbackP := c.feedbackP, feedbackQ := c.feedbackQ } = c) rfl
    fun _ _ _ _ ht => ht

/-- Settles O45: every turn writes one word of each window, from a table it leaves alone. -/
theorem seedingStep : Obligations.SeedingStep := by
  unfold Obligations.SeedingStep
  exact fun c => ⟨seedWindows_F c, seedWindows_rest c⟩

/-! ## Step 6: warm-up (R100) -/

/-- The Context after the first `n` calls of the warm-up. -/
def warmUpCalls (c : Context) (n : Nat) : Context := forUp (fun _ c => upd16 c) 0 n { c with counter := 0 }

theorem warmUpCalls_succ (c : Context) (n : Nat) : warmUpCalls c (n + 1) = upd16 (warmUpCalls c n) := rfl

theorem warmUp_eq (c : Context) : warmUp c = warmUpCalls c 64 := rfl

theorem updCall_warmUpCalls (c : Context) (n : Nat) : UpdCall (warmUpCalls c n) (warmUpCalls c (n + 1)) := by
  rw [warmUpCalls_succ]
  exact upd16_spec _

theorem warmUpCalls_counter (c : Context) (n : Nat) : (warmUpCalls c n).counter.toNat = 16 * n % 1024 := by
  induction n with
  | zero => rfl
  | succ n ih =>
    rw [(updCall_warmUpCalls c n).frame.counter, ih]
    omega

theorem warmUpCalls_step (c : Context) :
    ∀ n < 64, (warmUpCalls c n).counter.toNat = 16 * n ∧ UpdCall (warmUpCalls c n) (warmUpCalls c (n + 1)) :=
  fun n hn => ⟨by rw [warmUpCalls_counter, Nat.mod_eq_of_lt (by omega)], updCall_warmUpCalls c n⟩

/-- 64 calls are once around the 1024 words. -/
theorem warmUp_counter (c : Context) : (warmUp c).counter = 0 := by
  rw [warmUp_eq]
  exact BitVec.eq_of_toNat_eq (warmUpCalls_counter c 64)

/-- Settles O46: the chain is the warm-up's own partial runs. -/
theorem warmUpIs64UpdateCalls : Obligations.WarmUpIs64UpdateCalls := by
  unfold Obligations.WarmUpIs64UpdateCalls
  exact fun c => ⟨warmUpCalls c, rfl, warmUpCalls_step c, warmUp_eq c, warmUp_counter c⟩

/-! ## The packed operands (R90, R93, R94) -/

/-- Byte `j` of the 64 bytes that step 1 packs from the operands KEY and IV. -/
def packedByte (k : List Byte) (v : Vector Byte 16) (j : Nat) : Byte :=
  if j < 32 then k.getD (j % k.length) 0 else v.toList.getD ((j - 32) % 16) 0

theorem packedWord_eq (k : List Byte) (v : Vector Byte 16) (i : Nat) :
    packedWord k v i = packWord (packedByte k v) i := rfl

theorem packWord_congr {b b' : Nat → Byte} {i j : Nat} (hb : ∀ r < 4, b (4 * i + r) = b' (4 * j + r)) :
    packWord b i = packWord b' j := by
  have h0 : b (4 * i) = b' (4 * j) := hb 0 (by decide)
  rw [packWord, packWord, h0, hb 1 (by decide), hb 2 (by decide), hb 3 (by decide)]

theorem packedWord_key (k : List Byte) (v : Vector Byte 16) {i : Nat} (hi : i < 8) :
    packedWord k v i = packWord (fun j => k.getD (j % k.length) 0) i := by
  rw [packedWord_eq]
  refine packWord_congr fun r _ => ?_
  rw [packedByte, if_pos (by omega)]

theorem packedWord_iv (k : List Byte) (v : Vector Byte 16) (i : Nat) :
    packedWord k v (8 + i) = packWord (fun j => v.toList.getD (j % 16) 0) i := by
  rw [packedWord_eq]
  refine packWord_congr fun r _ => ?_
  have hindex : 4 * (8 + i) + r - 32 = 4 * i + r := by omega
  rw [packedByte, if_neg (by omega), hindex]

theorem ivFieldByte_copyOperands (k : List Byte) (v : Vector Byte 16) (c : Context) (j : Nat) :
    ivFieldByte (copyOperands k v c) j = v.toList.getD (j % 16) 0 := by
  simp [ivFieldByte, copyOperands, ivpack, Buffer.read, Nat.mod_lt]

/-- R93, R94: what step 1 packs after the operands are copied, whatever the Context was. -/
theorem packKeyAndIv_copyOperands {k : List Byte} (hk : 1 ≤ k.length ∧ k.length ≤ 16) (v : Vector Byte 16)
    (c : Context) : ∀ i < 16, (packKeyAndIv (copyOperands k v c)).T i = packedWord k v i := by
  intro i hi
  by_cases hkey : i < 8
  · rw [packKeyAndIv_T_key _ hkey, packedWord_key k v hkey, funext (keyFieldByte_copyOperands hk v c)]
  · obtain ⟨m, rfl⟩ : ∃ m, i = 8 + m := Nat.exists_eq_add_of_le (by omega)
    rw [packKeyAndIv_T_iv _ (by omega), packedWord_iv, funext (ivFieldByte_copyOperands k v c)]

/-! ## The whole of SETUP (R91, R101) -/

/-- R91: steps 1 to 4, which write the table alone. -/
def expandedContext (c : Context) : Context := secondExpansion (whiten (firstExpansion (packKeyAndIv c)))

theorem initializeTable_eq (c : Context) : initializeTable c = warmUp (seedWindows (expandedContext c)) := rfl

theorem expandedContext_keeps (P : Context → Prop) (hwrite : ∀ a < 1024, ∀ v c, P c → P (c.setT a v))
    {c : Context} (hc : P c) : P (expandedContext c) :=
  secondExpansion_keeps P hwrite
    (whiten_keeps P hwrite (firstExpansion_keeps P hwrite (packKeyAndIv_keeps P hwrite hc)))

theorem expandedContext_wf {c : Context} (hc : Memory.wf c.table) : Memory.wf (expandedContext c).table :=
  expandedContext_keeps (fun t => Memory.wf t.table) (fun _ ha v _ ht => Memory.wf_write ht ha v) hc

/-- R26, R27: the copies of the operands, which no step of the initializer writes. -/
def Context.copies (c : Context) : Buffer × Fin 17 × Buffer := (c.key, c.keylen, c.iv)

theorem UpdCall.copies {c d : Context} (hcall : UpdCall c d) : d.copies = c.copies := by
  rw [Context.copies, hcall.frame.key, hcall.frame.keylen, hcall.frame.iv, Context.copies]

/-- R26, R27: the copies that SETUP's operands leave: key bytes beyond the key length keep their old value. -/
theorem copies_copyOperands {k : List Byte} (hk : k.length ≤ 16) {v : Vector Byte 16} {c d : Context}
    (hd : d.copies = (copyOperands k v c).copies) :
    (∀ j < 16, Buffer.read d.key j = if j < k.length then k.getD j 0 else Buffer.read c.key j) ∧
      d.keylen.val = k.length ∧ d.iv = v := by
  obtain ⟨hkey, hkeylen, hiv⟩ : d.key = Buffer.copyIn c.key k ∧ d.keylen = Fin.ofNat 17 k.length ∧ d.iv = v := by
    simpa [Context.copies, copyOperands] using hd
  refine ⟨fun j hj => ?_, ?_, hiv⟩
  · rw [hkey, Buffer.read_copyIn, Nat.mod_eq_of_lt hj]
  · rw [hkeylen, Fin.val_ofNat, Nat.mod_eq_of_lt (by omega)]

theorem seedWindows_copies (c : Context) : (seedWindows c).copies = c.copies :=
  forUp_keeps (fun t : Context => t.copies = c.copies) rfl fun _ _ _ _ ht => ht

theorem copies_with_counter (c : Context) (n : BitVec 10) : { c with counter := n }.copies = c.copies := rfl

theorem initializeTable_copies (c : Context) : (initializeTable c).copies = c.copies := by
  have hexpanded : (expandedContext c).copies = c.copies :=
    expandedContext_keeps (fun t => t.copies = c.copies) (fun _ _ _ _ ht => ht) rfl
  rw [initializeTable_eq]
  refine warmUp_keeps (fun t => t.copies = c.copies) (fun t ht => (upd16_spec t).copies.trans ht) ?_
  rw [copies_with_counter, seedWindows_copies, hexpanded]

theorem expandedContext_T (c : Context) :
    ∀ a < 1024, (expandedContext c).T a = expansionSeq (packKeyAndIv c) (256 + a) :=
  secondExpansion_T (packKeyAndIv c)

theorem warmUpCalls_zero_T (c : Context) (a : Nat) : (warmUpCalls c 0).T a = c.T a := rfl

theorem warmUpCalls_zero_F (c : Context) (f : WindowName) (k : Nat) : (warmUpCalls c 0).F f k = c.F f k := by
  cases f <;> rfl

/-- R98, R99: the warm-up starts with the windows seeded from the words of W that became the table. -/
theorem seedWindows_expandedContext_F (c : Context) :
    ∀ k < 16, (seedWindows (expandedContext c)).F .X k = expansionSeq (packKeyAndIv c) (752 + k) ∧
      (seedWindows (expandedContext c)).F .Y k = expansionSeq (packKeyAndIv c) (1264 + k) := by
  intro k hk
  have hindexX : 256 + (496 + k) = 752 + k := by omega
  have hindexY : 256 + (1008 + k) = 1264 + k := by omega
  obtain ⟨hX, hY⟩ := seedWindows_F (expandedContext c) k hk
  rw [hX, hY, expandedContext_T c _ (by omega), expandedContext_T c _ (by omega), hindexX, hindexY]
  exact ⟨rfl, rfl⟩

/-- Settles O47: the initializer's result is the warm-up of the seeded Context, whose words are the sequence W over the
packed operands, and no step of it writes the copies. -/
theorem setupFollowsTheSixSteps : Obligations.SetupFollowsTheSixSteps := by
  unfold Obligations.SetupFollowsTheSixSteps
  intro s k v hp hk1 hk16
  have hk : 1 ≤ k.length ∧ k.length ≤ 16 := ⟨hk1, hk16⟩
  obtain ⟨t, ht, hctx, hphase, hcommand, hresponse, hdraws⟩ := exec_setup_next hp hk v
  have hpacked := packKeyAndIv_copyOperands hk v s.ctx
  have hcopies : t.ctx.copies = (copyOperands k v s.ctx).copies := hctx ▸ initializeTable_copies _
  obtain ⟨hkey, hkeylen, hiv⟩ := copies_copyOperands hk16 hcopies
  generalize copyOperands k v s.ctx = c at hctx hpacked
  rw [initializeTable_eq] at hctx
  refine ⟨t, expansionSeq (packKeyAndIv c), warmUpCalls (seedWindows (expandedContext c)), ht,
    isExpansionOf_expansionSeq hpacked, fun a ha => ?_, fun j hj => ?_, warmUpCalls_step _, hctx, ?_, hkeylen, hkey, hiv,
    hphase, hresponse, hcommand, hdraws⟩
  · rw [warmUpCalls_zero_T, seedWindows_T, expandedContext_T c a ha]
  · rw [warmUpCalls_zero_F, warmUpCalls_zero_F]
    exact seedWindows_expandedContext_F c j hj
  · rw [hctx, warmUp_counter]

/-- R101: steps 1 to 4 overwrite every word, so their table depends on the 16 packed words alone. -/
theorem expandedContext_table_congr {c d : Context} (hc : Memory.wf c.table) (hd : Memory.wf d.table)
    (hpacked : ∀ i < 16, (packKeyAndIv c).T i = (packKeyAndIv d).T i) :
    (expandedContext c).table = (expandedContext d).table := by
  refine Memory.ext_of_read (expandedContext_wf hc) (expandedContext_wf hd) fun a => ?_
  by_cases ha : a < 1024
  · calc (expandedContext c).T a
      _ = expansionSeq (packKeyAndIv c) (256 + a) := expandedContext_T c a ha
      _ = expansionSeq (packKeyAndIv d) (256 + a) := expansionSeq_congr hpacked _ (by omega)
      _ = (expandedContext d).T a := (expandedContext_T d a ha).symm
  · rw [Memory.read_outside (expandedContext_wf hc) (by omega), Memory.read_outside (expandedContext_wf hd) (by omega)]

/-- R99: step 5 overwrites both windows with words of the table. -/
theorem seedWindows_window_congr {c d : Context} (hcd : c.table = d.table) (f : WindowName) :
    (seedWindows c).window f = (seedWindows d).window f := by
  have hT (a : Nat) : c.T a = d.T a := by rw [Context.T, Context.T, hcd]
  refine Window.ext_of_read fun k hk => ?_
  obtain ⟨hXc, hYc⟩ := seedWindows_F c k hk
  obtain ⟨hXd, hYd⟩ := seedWindows_F d k hk
  cases f with
  | X => exact hXc.trans ((hT _).trans hXd.symm)
  | Y => exact hYc.trans ((hT _).trans hYd.symm)

/-- R100: the warm-up sets the counter, so the counters before it do not matter. -/
theorem like_warmUp {c d : Context} (htable : c.table = d.table) (hwindow : ∀ f, c.window f = d.window f) :
    Like (warmUp c) (warmUp d) :=
  Like.warmUp (c := { c with counter := 0 }) (d := { d with counter := 0 }) ⟨htable, hwindow .X, hwindow .Y, rfl⟩

theorem like_initializeTable {c d : Context} (hc : Memory.wf c.table) (hd : Memory.wf d.table)
    (hpacked : ∀ i < 16, (packKeyAndIv c).T i = (packKeyAndIv d).T i) :
    Like (initializeTable c) (initializeTable d) := by
  have htable := expandedContext_table_congr hc hd hpacked
  rw [initializeTable_eq, initializeTable_eq]
  refine like_warmUp ?_ (seedWindows_window_congr htable)
  rw [seedWindows_table, seedWindows_table, htable]

/-- Settles O48: after the operands are copied, both Contexts pack the same 16 words. -/
theorem setupForgetsThePriorState : Obligations.SetupForgetsThePriorState := by
  unfold Obligations.SetupForgetsThePriorState
  intro s s' k v hs hs' hp hp' hk1 hk16
  have hk : 1 ≤ k.length ∧ k.length ≤ 16 := ⟨hk1, hk16⟩
  obtain ⟨t, ht, hctx, hphase, -⟩ := exec_setup_next hp hk v
  obtain ⟨t', ht', hctx', hphase', -⟩ := exec_setup_next hp' hk v
  have hlike : Like t.ctx t'.ctx := by
    rw [hctx, hctx']
    refine like_initializeTable (by rwa [copyOperands_table]) (by rwa [copyOperands_table]) fun i hi => ?_
    rw [packKeyAndIv_copyOperands hk v s.ctx i hi, packKeyAndIv_copyOperands hk v s'.ctx i hi]
  exact ⟨t, t', ht, ht', hlike.table, hlike.feedbackP, hlike.feedbackQ, hlike.counter, hphase.trans hphase'.symm⟩

end Sys2Proof.Machine
end

section
/-! SUPPORT. The statements of 42_updater_generator.md: the functions g and h and the slots (R112, R113, R116), one
sub-step (R117, R118), one call (R110, R120, R122), the mirror construction and the coverage of the table (R124, R126);
and the frame of the commands made of generate calls (R110, R130). -/

namespace Sys2Proof.Machine

/-! ## g, h and the slots (R112, R113, R116) -/

/-- Settles O23: the side's direction, and the model's rotations as the bit vector's. -/
theorem functionG : Obligations.FunctionG := by
  unfold Obligations.FunctionG
  intro c0 x y z
  rcases sideOf_cases c0 with ⟨hP, hside⟩ | ⟨hQ, hside⟩
  · simp [hside, hP, g, Direction.rot, rotr_eq_rotateRight]
  · simp [hside, Nat.not_lt.2 hQ, g, Direction.rot, rotl_eq_rotateLeft]

theorem toNat_lo8 (w : Word) : (lo8 w).toNat = w.toNat % 256 := by
  simp [lo8, BitVec.extractLsb'_toNat]

theorem toNat_mid8 (w : Word) : (mid8 w).toNat = w.toNat / 65536 % 256 := by
  simp [mid8, BitVec.extractLsb'_toNat, Nat.shiftRight_eq_div_pow]

theorem sideOf_B (c0 : BitVec 10) : (sideOf c0).B = if c0.toNat < 512 then 0 else 512 := by
  unfold sideOf
  split <;> rfl

theorem sideOf_Bh (c0 : BitVec 10) : (sideOf c0).Bh = if c0.toNat < 512 then 512 else 0 := by
  unfold sideOf
  split <;> rfl

theorem sideOf_cc (c0 : BitVec 10) : (sideOf c0).cc = c0.toNat % 512 := by
  unfold sideOf
  split <;> rfl

/-- R116: no slot of a call lies in the half that h reads. -/
theorem slot_outside_half_of_h (c0 : BitVec 10) (k : Nat) :
    slot (sideOf c0) k < (sideOf c0).Bh ∨ (sideOf c0).Bh + 512 ≤ slot (sideOf c0) k := by
  have := slot_range c0 k
  have := sideOf_bases c0
  omega

/-- Settles O25: the two lookups by arithmetic on the argument, and the slots in the other half. -/
theorem functionH : Obligations.FunctionH := by
  unfold Obligations.FunctionH
  intro c0 c
  rw [← sideOf_Bh]
  refine ⟨fun w => ?_, fun k _ => rfl, slot_outside_half_of_h c0⟩
  rw [h, hAddrLo, hAddrHi, toNat_lo8, toNat_mid8]

/-- R113: the word after the slot is the slot of the next index. -/
theorem nxt_eq_slot_succ (sd : Side) (k : Nat) : nxt sd k = slot sd (k + 1) := rfl

theorem nxt_ne_slot_same (sd : Side) (k : Nat) : nxt sd k ≠ slot sd k := by
  unfold nxt slot
  omega

/-- Settles O26: the formulas with the side's bases, and their values for an aligned counter and at the wrap. -/
theorem slotAddressing : Obligations.SlotAddressing := by
  unfold Obligations.SlotAddressing
  intro c0 k
  rw [← sideOf_B, ← sideOf_cc]
  refine ⟨rfl, rfl, nxt_ne_slot_same _ k, fun hc hk => slot_aligned hc hk, fun hcc => ?_⟩
  rw [nxt, hcc]
  rfl

/-! ## One sub-step (R117, R118) -/

/-- R117, R118: what the writes of a sub-step change, and that they change nothing else. -/
theorem store_effect (sd : Side) (c : Context) {k : Nat} (hk : k < 16) (v : Word) :
    (∀ a, (store sd c k v).T a = if a = slot sd k then v else c.T a) ∧
    (∀ j < 16, (store sd c k v).F sd.F j = if j = k then v else c.F sd.F j) ∧
    (∀ f, f ≠ sd.F → (store sd c k v).window f = c.window f) ∧
    (store sd c k v).counter = c.counter ∧ (store sd c k v).key = c.key ∧
    (store sd c k v).keylen = c.keylen ∧ (store sd c k v).iv = c.iv := by
  refine ⟨store_T sd c k v, fun j hj => ?_, fun f => store_window_other sd c k v, store_counter sd c k v,
    store_key sd c k v, store_keylen sd c k v, store_iv sd c k v⟩
  rw [store_F, Nat.mod_eq_of_lt hj, Nat.mod_eq_of_lt hk]

/-- Settles O27: the sub-step is one store, of the sum xored with the h term. -/
theorem updateSubstep : Obligations.UpdateSubstep := by
  unfold Obligations.UpdateSubstep
  intro c0 c k hk
  exact store_effect (sideOf c0) c hk (gSum (sideOf c0) c k ^^^ hTerm (sideOf c0) c k)

/-- Settles O28: the sub-step is one store, of the sum alone. -/
theorem generateSubstep : Obligations.GenerateSubstep := by
  unfold Obligations.GenerateSubstep
  intro c0 c out k hk
  exact ⟨rfl, store_effect (sideOf c0) c hk (gSum (sideOf c0) c k)⟩

/-! ## One call (R110 to R122) -/

/-- Settles O29: both calls have the frame of R110. -/
theorem callsAdvanceTheCounter : Obligations.CallsAdvanceTheCounter := by
  unfold Obligations.CallsAdvanceTheCounter
  exact fun c => ⟨(upd16_spec c).frame.counter, (gen16_spec c).frame.counter⟩

/-- Settles O31: in an accepting phase the next state holds what GEN16 does, in the other phases the command is
refused. -/
theorem genRunsOneGenerateCall : Obligations.GenRunsOneGenerateCall := by
  unfold Obligations.GenRunsOneGenerateCall
  refine fun s => ⟨fun hp => ⟨_, _, gen16_spec s.ctx, gen16_length s.ctx, ?_⟩, fun hp => ?_⟩
  · rw [exec_gen, execGen_ok hp, State.respond]
  · have hrefused : ¬ (s.phase = .Zeroed ∨ s.phase = .Ready) := by
      rcases hp with hp | hp <;> simp [hp]
    rw [exec_gen, execGen_notUsable hrefused, raise_notUsable]

/-! ## The mirror construction (R124) -/

@[simp] theorem WindowName.other_other (f : WindowName) : f.other.other = f := by cases f <;> rfl

theorem WindowName.eq_or_eq_other (f f' : WindowName) : f' = f ∨ f' = f.other := by
  cases f <;> cases f' <;> decide

theorem WindowName.other_ne (f : WindowName) : f.other ≠ f := by cases f <;> decide

/-! Every address a sub-step forms moves by 512 with the half it lies in. -/

theorem slot_mirror (c0 : BitVec 10) (k : Nat) :
    slot (sideOf c0).mirror k = (slot (sideOf c0) k + 512) % 1024 := by
  have := sideOf_bases c0
  simp only [slot, Side.mirror_B, Side.mirror_cc]
  omega

theorem hAddrLo_mirror (c0 : BitVec 10) (w : Word) :
    hAddrLo (sideOf c0).mirror w = (hAddrLo (sideOf c0) w + 512) % 1024 := by
  have := sideOf_bases c0
  have := (lo8 w).isLt
  simp only [hAddrLo, Side.mirror_Bh]
  omega

theorem hAddrHi_mirror (c0 : BitVec 10) (w : Word) :
    hAddrHi (sideOf c0).mirror w = (hAddrHi (sideOf c0) w + 512) % 1024 := by
  have := sideOf_bases c0
  have := (mid8 w).isLt
  simp only [hAddrHi, Side.mirror_Bh]
  omega

theorem hAddrLo_lt (c0 : BitVec 10) (w : Word) : hAddrLo (sideOf c0) w < 1024 := by
  have := hAddrLo_range (sideOf c0) w
  have := sideOf_bases c0
  omega

theorem hAddrHi_lt (c0 : BitVec 10) (w : Word) : hAddrHi (sideOf c0) w < 1024 := by
  have := hAddrHi_range (sideOf c0) w
  have := sideOf_bases c0
  omega

/-- R124: the operands of g, and so the sum, are the same on the mirrored side. -/
theorem Mirrored.gSum {c d : Context} (hm : Mirrored c d) (c0 : BitVec 10) (k : Nat) :
    gSum (sideOf c0).mirror d k = gSum (sideOf c0) c k := by
  simp only [Machine.gSum, nxt_eq_slot_succ, slot_mirror, hm.table _ (slot_lt c0 _), Side.mirror_F, hm.window, g_mirror]

/-- R124: h reads the same words on the mirrored side. -/
theorem Mirrored.hTerm {c d : Context} (hm : Mirrored c d) (c0 : BitVec 10) (k : Nat) :
    hTerm (sideOf c0).mirror d k = hTerm (sideOf c0) c k := by
  simp only [Machine.hTerm, h, Side.mirror_F, hm.window, hAddrLo_mirror, hAddrHi_mirror, hm.table _ (hAddrLo_lt c0 _),
    hm.table _ (hAddrHi_lt c0 _)]

/-- R124: the same word stored on mirrored sides keeps the Contexts mirrored. -/
theorem Mirrored.store {c d : Context} (hm : Mirrored c d) (c0 : BitVec 10) (k : Nat) (v : Word) :
    Mirrored (store (sideOf c0) c k v) (store (sideOf c0).mirror d k v) where
  table a ha := by
    have hlt := slot_lt c0 k
    have haddress : (a + 512) % 1024 = (slot (sideOf c0) k + 512) % 1024 ↔ a = slot (sideOf c0) k := by omega
    simp only [store_T, slot_mirror, haddress, hm.table a ha]
  window f j := by
    rcases WindowName.eq_or_eq_other (sideOf c0).F f with rfl | rfl
    · rw [← Side.mirror_F, store_F, store_F, Side.mirror_F, hm.window]
    · rw [Context.F, Context.F, store_window_other _ _ _ _ (WindowName.other_ne _),
        store_window_other _ _ _ _ (by rw [Side.mirror_F]; exact WindowName.other_ne _)]
      exact hm.window _ j

/-- R124, R111: the Q-mode side at the same slot base is the mirrored P-mode side with left rotations. -/
theorem sideOf_add_512 {c0 : BitVec 10} (hc : c0.toNat < 512) :
    sideOf (c0 + 512) = { (sideOf c0).mirror with dir := .left } := by
  have hadd : (c0 + 512).toNat = c0.toNat + 512 := by
    rw [BitVec.toNat_add]
    exact Nat.mod_eq_of_lt (show c0.toNat + 512 < 1024 by omega)
  have hQ : ¬ c0.toNat + 512 < 512 := by omega
  simp only [sideOf, hadd, if_pos hc, if_neg hQ, Nat.add_mod_right, Side.mirror, WindowName.other, Nat.mod_self,
    Nat.reduceAdd, Nat.reduceMod]

/-- Settles O32: a sub-step reads equal operands and makes equal stores on mirrored sides. -/
theorem mirrorConstruction : Obligations.MirrorConstruction := by
  unfold Obligations.MirrorConstruction
  refine ⟨fun c0 c d k hm => ?_, fun c0 c d out k hm => ?_, fun c0 hc => ⟨sideOf_add_512 hc, ?_⟩⟩
  · rw [updSubstep, updSubstep, hm.gSum, hm.hTerm]
    exact hm.store c0 k _
  · simp only [genSubstep, hm.gSum, hm.hTerm]
    exact ⟨hm.store c0 k _, trivial⟩
  · simp [sideOf, hc]

/-! ## The calls of a counter cycle (R126) -/

/-- The slots of call `n` from an aligned counter. -/
theorem slot_of_call {c0 : BitVec 10} (hc : c0.toNat % 16 = 0) (n : Nat) {k : Nat} (hk : k < 16) :
    slot (sideOf (c0 + BitVec.ofNat 10 (16 * n))) k = (c0.toNat + 16 * n) % 1024 + k := by
  have hcounter : (c0 + BitVec.ofNat 10 (16 * n)).toNat = (c0.toNat + 16 * n) % 1024 := by
    simp [BitVec.toNat_add]
  rw [slot_aligned (by omega) hk, hcounter]

/-- Settles O33: the distance from the counter to the address, modulo 1024, is 16 n + k. -/
theorem everyWordHasOneSlotPerCycle : Obligations.EveryWordHasOneSlotPerCycle := by
  unfold Obligations.EveryWordHasOneSlotPerCycle
  intro c0 hc a ha
  have hc0 := c0.isLt
  refine ⟨((a + 1024 - c0.toNat) % 1024 / 16, a % 16), ⟨by omega, by omega, ?_⟩, ?_⟩
  · rw [slot_of_call hc _ (Nat.mod_lt a (by decide))]
    dsimp only
    omega
  · rintro ⟨n, k⟩ ⟨hn, hk, hslot⟩
    dsimp only at hn hk hslot
    rw [slot_of_call hc n hk] at hslot
    exact Prod.ext (by dsimp only; omega) (by dsimp only; omega)

/-! ## The frame of GEN and XFORM (R110, R130) -/

/-- The Context after `n` generate calls. -/
def genCalls (n : Nat) (c : Context) : Context := (fun c => (gen16 c).1)^[n] c

@[simp] theorem genCalls_zero (c : Context) : genCalls 0 c = c := rfl

theorem genCalls_succ (n : Nat) (c : Context) : genCalls (n + 1) c = (gen16 (genCalls n c)).1 :=
  Function.iterate_succ_apply' _ n c

theorem genCalls_gen16 (n : Nat) (c : Context) : genCalls n (gen16 c).1 = genCalls (n + 1) c :=
  (Function.iterate_succ_apply _ n c).symm

/-- R130, R133, R134: one generate call for each started block of 64 bytes is XFORM's whole effect on the Context. -/
theorem transform_fst (data : List Byte) (c : Context) :
    (transform data c).1 = genCalls ((data.length + 63) / 64) c := by
  induction hn : data.length / 64 generalizing data c with
  | zero =>
    rw [transform_of_lt (by omega)]
    cases data with
    | nil => rfl
    | cons b data =>
      have hone : ((b :: data).length + 63) / 64 = 1 := by
        rw [List.length_cons] at hn ⊢
        omega
      rw [hone]
      rfl
  | succ n ih =>
    have hblocks : ((data.drop 64).length + 63) / 64 + 1 = (data.length + 63) / 64 := by
      rw [List.length_drop]
      omega
    rw [transform_of_ge (by omega)]
    dsimp only
    rw [ih (data.drop 64) _ (by rw [List.length_drop]; omega), genCalls_gen16, hblocks]

theorem genCalls_counter (n : Nat) (c : Context) :
    (genCalls n c).counter = c.counter + BitVec.ofNat 10 (16 * n) := by
  induction n with
  | zero => simp
  | succ n ih =>
    rw [genCalls_succ, gen16_fst, advance_counter, ih, BitVec.add_assoc, Nat.mul_succ, BitVec.ofNat_add]
    rfl

/-- The frame of call `n`, from the counter at entry to the first. -/
theorem genCalls_frame (n : Nat) (c : Context) : CallFrame (genCalls n c) (genCalls (n + 1) c) := by
  rw [genCalls_succ]
  exact (gen16_spec _).frame

theorem genCalls_T {n : Nat} {c : Context} {a : Nat}
    (ha : ∀ m < n, ∀ k < 16, a ≠ slot (sideOf (c.counter + BitVec.ofNat 10 (16 * m))) k) :
    (genCalls n c).T a = c.T a := by
  induction n with
  | zero => rfl
  | succ n ih =>
    rw [(genCalls_frame n c).table a (by rw [genCalls_counter]; exact ha n n.lt_succ_self)]
    exact ih fun m hm => ha m (by omega)

theorem genCalls_window {n : Nat} {c : Context} {f : WindowName}
    (hf : ∀ m < n, f ≠ (sideOf (c.counter + BitVec.ofNat 10 (16 * m))).F) :
    (genCalls n c).window f = c.window f := by
  induction n with
  | zero => rfl
  | succ n ih =>
    rw [(genCalls_frame n c).inactive f (by rw [genCalls_counter]; exact hf n n.lt_succ_self)]
    exact ih fun m hm => hf m (by omega)

theorem genCalls_copies (n : Nat) (c : Context) :
    (genCalls n c).key = c.key ∧ (genCalls n c).keylen = c.keylen ∧ (genCalls n c).iv = c.iv := by
  induction n with
  | zero => exact ⟨rfl, rfl, rfl⟩
  | succ n ih =>
    have hf := genCalls_frame n c
    rwa [hf.key, hf.keylen, hf.iv]

/-- R122, R130: GEN and XFORM change the Context by their generate calls, and beside it the response port alone. -/
theorem exec_cipher_next {s t : State} {i : Instr} {n : Nat}
    (hi : i = .gen ∧ n = 1 ∨ ∃ data, i = .xform data ∧ n = (data.length + 63) / 64) (ht : exec i s = .next t) :
    t.ctx = genCalls n s.ctx ∧ t.phase = s.phase ∧ t.commandPort = s.commandPort ∧ t.freeDraws = s.freeDraws := by
  rcases hi with ⟨rfl, rfl⟩ | ⟨data, rfl, rfl⟩
  · cases exec_next ht
    exact ⟨rfl, rfl, rfl, rfl⟩
  · cases exec_next ht
    exact ⟨transform_fst data s.ctx, rfl, rfl, rfl⟩

/-- Settles O40: the frame of the generate calls that the command makes. -/
theorem cipherCommandsFrame : Obligations.CipherCommandsFrame := by
  unfold Obligations.CipherCommandsFrame
  intro s t i n hi ht
  obtain ⟨hctx, hphase, hcommand, hdraws⟩ := exec_cipher_next hi ht
  obtain ⟨hkey, hkeylen, hiv⟩ := genCalls_copies n s.ctx
  rw [hctx]
  exact ⟨fun _ => genCalls_T, fun _ => genCalls_window, hkey, hkeylen, hiv, hphase, hcommand, hdraws⟩

end Sys2Proof.Machine
end

section
/-! SUPPORT. The statements of 43_cipher_driver.md: the keystream and XFORM as its xor with the data (R130 to R133),
no data (R134), chunking (R135), and decryption (R136). -/

namespace Sys2Proof.Machine

/-! ## XFORM xors the data with the keystream (R130 to R133) -/

/-- Byte `i` of the keystream drawn from a Context: byte `i mod 64` of the block of generate call `i / 64`. -/
def keystreamByte (c : Context) (i : Nat) : Byte := (gen16 (genCalls (i / 64) c)).2.getD (i % 64) 0

/-- The data, each byte xored with the keystream byte of its own index. -/
def xorKeystream (data : List Byte) (c : Context) : List Byte := data.mapIdx fun i b => b ^^^ keystreamByte c i

theorem genCalls_add (m n : Nat) (c : Context) : genCalls n (genCalls m c) = genCalls (m + n) c := by
  rw [Nat.add_comm]
  exact (Function.iterate_add_apply _ n m c).symm

/-- `n` generate calls draw `n` blocks. -/
theorem keystreamByte_genCalls (n : Nat) (c : Context) (i : Nat) :
    keystreamByte (genCalls n c) i = keystreamByte c (i + 64 * n) := by
  rw [keystreamByte, keystreamByte, genCalls_add, Nat.add_mul_div_left _ _ (by decide), Nat.add_mul_mod_self_left,
    Nat.add_comm n]

theorem xorKeystream_append {d1 : List Byte} {n : Nat} (hn : d1.length = 64 * n) (d2 : List Byte) (c : Context) :
    xorKeystream (d1 ++ d2) c = xorKeystream d1 c ++ xorKeystream d2 (genCalls n c) := by
  simp only [xorKeystream, keystreamByte_genCalls, List.mapIdx_append, hn]

/-- Within one block the keystream is that of a single generate call. -/
theorem xorBytes_gen16 {data : List Byte} (hd : data.length ≤ 64) (c : Context) :
    xorBytes data (gen16 c).2 = xorKeystream data c := by
  refine List.ext_getElem (by simp [xorBytes_length, xorKeystream, hd]) fun i hi _ => ?_
  have hdata : i < data.length := by rw [xorBytes_length] at hi; omega
  have hlt : i < 64 := by omega
  have hbyte : (gen16 c).2[i]'(by rwa [gen16_length]) = keystreamByte c i := by
    rw [keystreamByte, Nat.div_eq_of_lt hlt, Nat.mod_eq_of_lt hlt, genCalls_zero, List.getD_eq_getElem]
  rw [xorBytes_getElem data _ i hdata (by rwa [gen16_length]), hbyte]
  simp [xorKeystream]

/-- R133, R134: no data and a started block alike take the prefix of a keystream block. -/
theorem transformTail_snd (data : List Byte) (c : Context) :
    (transformTail data c).2 = xorBytes data (gen16 c).2 := by
  cases data with
  | nil => rfl
  | cons b data => rw [transformTail]

/-- R130 to R133: XFORM's output, block by block. -/
theorem transform_snd (data : List Byte) (c : Context) : (transform data c).2 = xorKeystream data c := by
  induction hn : data.length / 64 generalizing data c with
  | zero =>
    rw [transform_of_lt (by omega), transformTail_snd, xorBytes_gen16 (by omega)]
  | succ n ih =>
    have hblock : (data.take 64).length = 64 := List.length_take_of_le (by omega)
    calc (transform data c).2
      _ = xorBytes (data.take 64) (gen16 c).2 ++ (transform (data.drop 64) (gen16 c).1).2 := by
        rw [transform_of_ge (by omega)]
      _ = xorKeystream (data.take 64) c ++ xorKeystream (data.drop 64) (genCalls 1 c) := by
        rw [xorBytes_gen16 hblock.le, ih _ _ (by rw [List.length_drop]; omega)]
        rfl
      _ = xorKeystream data c := by
        rw [← xorKeystream_append hblock, List.take_append_drop]

/-- Settles O35: the chain of the generate calls, the keystream that they draw, and their counter. -/
theorem xformXorsTheKeystream : Obligations.XformXorsTheKeystream := by
  unfold Obligations.XformXorsTheKeystream
  intro s data hp
  refine ⟨fun n => genCalls n s.ctx, xorKeystream data s.ctx, rfl, fun n => genCalls_succ n s.ctx, ?_,
    List.length_mapIdx, fun i hi => ?_, ?_⟩
  · rw [exec_xform, execXform_ok hp, transform_fst, transform_snd, State.respond]
  · change _ = data.getD i 0 ^^^ keystreamByte s.ctx i
    simp [xorKeystream, hi]
  · rw [genCalls_counter, BitVec.toNat_add, BitVec.toNat_ofNat, Nat.add_mod_mod]

/-! ## No data (R134) -/

/-- Settles O36: no data takes no generate call, and the phase is checked as for any other data. -/
theorem xformOfNothing : Obligations.XformOfNothing := by
  unfold Obligations.XformOfNothing
  refine fun s => ⟨fun hp => ?_, fun hp => ?_⟩
  · rw [exec_xform, execXform_ok hp, transform_nil, State.respond]
  · have hrefused : ¬ (s.phase = .Zeroed ∨ s.phase = .Ready) := by
      rcases hp with hp | hp <;> simp [hp]
    rw [exec_xform, execXform_notUsable hrefused, raise_notUsable]

/-! ## Chunking (R135) -/

/-- R135: after whole blocks the rest of the data is transformed as a buffer of its own. -/
theorem transform_append {d1 : List Byte} (hd : 64 ∣ d1.length) (d2 : List Byte) (c : Context) :
    transform (d1 ++ d2) c =
      ((transform d2 (transform d1 c).1).1, (transform d1 c).2 ++ (transform d2 (transform d1 c).1).2) := by
  obtain ⟨n, hn⟩ := hd
  have hblocks : (d1.length + 63) / 64 = n := by omega
  have hfst : (transform d1 c).1 = genCalls n c := by rw [transform_fst, hblocks]
  refine Prod.ext ?_ ?_
  · have hcalls : n + (d2.length + 63) / 64 = ((d1 ++ d2).length + 63) / 64 := by
      rw [List.length_append]
      omega
    dsimp only
    rw [hfst, transform_fst, transform_fst, genCalls_add, hcalls]
  · dsimp only
    rw [hfst, transform_snd, transform_snd, transform_snd, xorKeystream_append hn]

/-- R135: data padded to whole blocks start no further block. -/
theorem transform_padded_fst (data : List Byte) (c : Context) :
    (transform (data ++ List.replicate ((64 - data.length % 64) % 64) 0) c).1 = (transform data c).1 := by
  have hblocks : ((data ++ List.replicate ((64 - data.length % 64) % 64) (0 : Byte)).length + 63) / 64 =
      (data.length + 63) / 64 := by
    rw [List.length_append, List.length_replicate]
    omega
  rw [transform_fst, transform_fst, hblocks]

theorem exec_xform_ctx {s t : State} {data : List Byte} (ht : exec (.xform data) s = .next t) :
    t.ctx = (transform data s.ctx).1 := by
  cases exec_next ht
  exact State.respond_ctx _ _

/-- Settles O38: (a) from the transform of an append, (b) from the number of started blocks. -/
theorem chunkingAtBlockBoundaries : Obligations.ChunkingAtBlockBoundaries := by
  unfold Obligations.ChunkingAtBlockBoundaries
  refine ⟨fun s d1 d2 hp hd => ?_, fun s t t' data ht ht' => ?_⟩
  · obtain ⟨t1, ht1, hctx1, hphase1, -, hout1, -⟩ := exec_xform_next hp d1
    obtain ⟨t2, ht2, hctx2, hphase2, -, hout2, -⟩ := exec_xform_next (hphase1 ▸ hp) d2
    obtain ⟨t, ht, hctx, hphase, -, hout, -⟩ := exec_xform_next hp (d1 ++ d2)
    rw [hctx1] at hctx2 hout2
    rw [transform_append hd] at hctx hout
    exact ⟨t1, t2, t, _, _, ht1, hout1, ht2, hout2, ht, hout, hctx.trans hctx2.symm,
      hphase.trans (hphase2.trans hphase1).symm, transform_length d1 s.ctx, transform_length d2 _⟩
  · rw [exec_xform_ctx ht, exec_xform_ctx ht', transform_padded_fst]

/-! ## Decryption (R136) -/

theorem xorKeystream_xorKeystream (data : List Byte) (c : Context) :
    xorKeystream (xorKeystream data c) c = data := by
  have hxor (b k : Byte) : b ^^^ k ^^^ k = b := by rw [BitVec.xor_assoc, BitVec.xor_self, BitVec.xor_zero]
  refine List.ext_getElem (by simp [xorKeystream]) fun i _ _ => ?_
  simp [xorKeystream, hxor]

/-- R136: alike Contexts give one keystream, and xoring with it twice gives the data back. -/
theorem transform_transform {c d : Context} (hl : Like c d) (data : List Byte) :
    (transform (transform data c).2 d).2 = data := by
  rw [← (hl.transform _).2, transform_snd, transform_snd, xorKeystream_xorKeystream]

/-- Settles O39: the second SETUP, on the canonical table that XFORM left, ends in a Context like the first one's
(R101), so XFORM draws the same keystream again. -/
theorem decryptionInvertsEncryption : Obligations.DecryptionInvertsEncryption := by
  unfold Obligations.DecryptionInvertsEncryption
  intro s key data iv hs hp hk1 hk16
  have hk : 1 ≤ key.length ∧ key.length ≤ 16 := ⟨hk1, hk16⟩
  obtain ⟨s1, hs1, hctx1, hphase1, -⟩ := exec_setup_next hp hk iv
  obtain ⟨s2, hs2, hctx2, hphase2, -, hout2, -⟩ := exec_xform_next (.inr hphase1) data
  have hcanonical : CanonicalTable s2 := by
    have hwf : Memory.wf s1.ctx.table := by
      rw [hctx1]
      exact initializeTable_wf (by rwa [copyOperands_table])
    rw [CanonicalTable, hctx2]
    exact transform_keeps (fun c => Memory.wf c.table) (fun _ => gen16_wf) data hwf
  have hp2 : s2.phase ≠ .Released := by
    rw [hphase2, hphase1]
    decide
  obtain ⟨u, s3, hu, hs3, htable, hX, hY, hcounter, hphase3⟩ :=
    setupForgetsThePriorState s s2 key iv hs hcanonical hp hp2 hk1 hk16
  obtain rfl : s1 = u := Host.Outcome.next.inj (hs1.symm.trans hu)
  obtain ⟨s4, hs4, -, -, -, hout4, -⟩ := exec_xform_next (.inr (hphase3 ▸ hphase1)) (transform data s1.ctx).2
  rw [transform_transform ⟨htable, hX, hY, hcounter⟩] at hout4
  exact ⟨s1, s2, s3, s4, _, hs1, hs2, hout2, hs3, hs4, hout4⟩

end Sys2Proof.Machine
end

section
/-! SUPPORT. The statements of 60_exceptions.md: the three exceptions (R141, R142, R143) and their priority order
(R147). -/

namespace Sys2Proof.Machine

/-! ## InvalidKeyLength (R141) -/

theorem exec_setup_badKeyLength_next {s : State} (hp : s.phase ≠ .Released) {k : List Byte}
    (hk : ¬ (1 ≤ k.length ∧ k.length ≤ 16)) (v : Vector Byte 16) :
    ∃ t, exec (.setup k v) s = .next t ∧ t.ctx = Context.anyValue s.freeDraws ∧ t.phase = .Undefined ∧
      t.commandPort = s.commandPort ∧ t.responsePort = s.responsePort ++ [0x01] ∧ t.freeDraws = s.freeDraws + 1 :=
  next_fields (by rw [exec_setup, execSetup_badKeyLength hp hk, raise_invalidKeyLength, State.respond])

/-- Settles O9: the step executes SETUP without its packet, and the illegal key length raises `InvalidKeyLength`, whose
next state keeps the command port. -/
theorem badKeyLengthLeavesUndefined : Obligations.BadKeyLengthLeavesUndefined := by
  unfold Obligations.BadKeyLengthLeavesUndefined
  intro s key iv rest hd hp hkey
  have hbad : ¬ (1 ≤ key.length ∧ key.length ≤ 16) := by omega
  obtain ⟨t, ht, -, hphase, hcommand, hresponse, -⟩ :=
    exec_setup_badKeyLength_next (s := { s with commandPort := rest }) hp hbad iv
  exact ⟨t, (step_of_fetch (fetch_of_decode hd)).trans ht, hphase, hresponse, hcommand⟩

/-! ## NotUsable (R142) -/

/-- R142: what the phase forbids, in the words of the rule. -/
theorem not_accepts_iff (p : Phase) (i : Instr) :
    ¬ accepts p i ↔ (p = .Undefined ∧ (i = .gen ∨ ∃ data, i = .xform data)) ∨ (p = .Released ∧ i ≠ .clear) := by
  rw [accepts_iff]
  simp only [not_and_or, Classical.not_imp, not_forall, not_not]

/-- R142: the only refusal is `NotUsable`, and it is raised exactly where the phase does not accept the command. -/
theorem exec_refused_iff {i : Instr} {s : State} {r : Refusal} :
    exec i s = .refused r ↔
      ¬ accepts s.phase i ∧ r = .notUsable { s with responsePort := s.responsePort ++ [0x02] } := by
  rcases exec_outcome i s with ⟨ha, t, ht⟩ | ⟨hn, hraise⟩
  · rw [ht]
    exact iff_of_false (fun h => nomatch h) fun h => h.1 ha
  · rw [hraise, raise_notUsable, Host.Outcome.refused.injEq, eq_comm (b := r)]
    exact (and_iff_right hn).symm

/-- Settles O10: the step executes the decoded command on the state without its packet, which has the same phase, and
the refusals of a command are known. -/
theorem notUsableExactlyWhenThePhaseForbids : Obligations.NotUsableExactlyWhenThePhaseForbids := by
  unfold Obligations.NotUsableExactlyWhenThePhaseForbids
  intro s i rest hd
  rw [step_of_fetch (fetch_of_decode hd)]
  refine ⟨?_, fun r hr => (exec_refused_iff.1 hr).2⟩
  simp only [exec_refused_iff, exists_and_left, exists_eq, and_true]
  exact not_accepts_iff s.phase i

/-! ## IllegalCommand (R143) -/

/-- Settles O11: the decoder rejects a reserved opcode before the phase is looked at. -/
theorem reservedOpcodeIsIllegalCommand : Obligations.ReservedOpcodeIsIllegalCommand := by
  unfold Obligations.ReservedOpcodeIsIllegalCommand
  exact fun s b0 rest hport hb => step_reserved hport hb

/-! ## The priority order (R147) -/

/-- Settles O12: a reserved opcode never reaches a command, and `execSetup` checks the phase before the key length. -/
theorem exceptionsInPriorityOrder : Obligations.ExceptionsInPriorityOrder := by
  unfold Obligations.ExceptionsInPriorityOrder
  refine ⟨fun s b0 rest hport hb => ⟨_, step_reserved hport hb, rfl⟩, fun s key iv hp => ?_, fun s key iv hp hbad => ?_⟩
  · exact ⟨_, exec_refused_iff.2 ⟨not_not_intro hp, rfl⟩, hp, rfl⟩
  · obtain ⟨t, ht, -, hphase, -, hresponse, -⟩ := exec_setup_badKeyLength_next hp hbad iv
    exact ⟨t, ht, hphase, hresponse⟩

end Sys2Proof.Machine
end
